-- ==== Sys2Proof/Word.lean ====
section
/-! DEFINITION. The words the core handles: 32-bit values, bytes, 40-bit commands and 33-bit responses
(00_scope.md R6, R8; 30_encoding.md R60, R63). -/

namespace Sys2Proof

/-- A 32-bit unsigned value: the accumulator, a table entry, STATUS, a checksum (R6, R8). -/
abbrev Word := BitVec 32

/-- An 8-bit byte, also a TABLE index and an OP field (R6, R24, R60). -/
abbrev Byte := BitVec 8

/-- A 40-bit command word: OP in bits 39..32, ARG in bits 31..0 (R60). -/
abbrev CmdWord := BitVec 40

/-- A 33-bit response word: ERR in bit 32, DATA in bits 31..0 (R63). -/
abbrev RspWord := BitVec 33

end Sys2Proof
end

