-- ==== Sys2Proof/Config.lean ====
section
/-! DEFINITION. What is fixed for the hardware (00_scope.md R6, R7; 10_state.md R32), the three agents (R29), what
HOST may do (70_reset_and_hazards.md R178), and the free values: which agent moves next and what HOST does next. -/

namespace Sys2Proof.Config

/-- POLY, the reflected generator polynomial (R6). -/
def poly : Word := 0xEDB88320#32

/-- SEED, the initial accumulator of a calculation (R6). -/
def seed : Word := 0xFFFFFFFF#32

/-- XOROUT, the final XOR (R6). -/
def xorOut : Word := 0xFFFFFFFF#32

/-- TABLE_DEPTH, the number of TABLE entries (R6). -/
def tableDepth : Nat := 256

/-- The number of bit-steps that make one table entry (R6). -/
def bitStepsPerEntry : Nat := 8

/-- The two parameters the spec leaves open (R7). Each depth is an integer of at least 1, so each is kept as what it
has beyond 1. -/
structure Params where
  cmdBeyondOne : Nat
  rspBeyondOne : Nat
  deriving DecidableEq, Repr, Inhabited

/-- CMD_DEPTH: how many commands CMDQ holds (R7, R27). -/
def Params.cmdDepth (p : Params) : Nat := p.cmdBeyondOne + 1

/-- RSP_DEPTH: how many responses RSPQ holds (R7, R27). -/
def Params.rspDepth (p : Params) : Nat := p.rspBeyondOne + 1

/-- The depths of this core. The spec leaves them open (R7, D2), so nothing is said of them: notes/assumptions/4. -/
opaque params : Params

/-- The agents that take steps (R11, R29). -/
inductive Agent where
  | host
  | engine
  | tgen
  deriving DecidableEq, Repr, Inhabited

/-- What HOST may do at the interface (R178): append any 40-bit word to CMDQ, remove the oldest response, assert reset. -/
inductive HostAction where
  | send (w : CmdWord)
  | take
  | reset
  deriving DecidableEq, Repr, Inhabited

/-- FREE VALUE: the agent whose turn it is in a step for which the state lists no turn. Any enabled step of any
agent may be taken next (R11): notes/assumptions/1. -/
opaque freeTurn : Nat → Agent

/-- FREE VALUE: what HOST does on a turn for which the state lists no action. HOST may do any action of R178 at any
time: notes/assumptions/2. -/
opaque freeHostAction : Nat → HostAction

end Sys2Proof.Config
end

