-- ==== Sys2Proof/Syntax.lean ====
section
/-! DEFINITION. The nine commands of CRC32-CMD (00_scope.md R3, 30_encoding.md R64), and the statements of its
assembly language with the pseudo-instructions (30_encoding.md R72 to R79). -/

namespace Sys2Proof

/-- A command, one constructor per row of the opcode table (R64). An operand has the type of its field, so a term
of this type is a legal command whatever its operand (R45, R62). -/
inductive Instr where
  /-- NOP, format N (42_control.md R130). -/
  | nop
  /-- SEED, format N (41_calculator_core.md R102). -/
  | seed
  /-- UPDB b, format B (41_calculator_core.md R103). -/
  | updb (b : Byte)
  /-- FIN, format N (41_calculator_core.md R104). -/
  | fin
  /-- ACCRD, format N (41_calculator_core.md R106). -/
  | accrd
  /-- ACCWR v, format W (41_calculator_core.md R107). -/
  | accwr (v : Word)
  /-- TBLRD idx, format B (40_table_generator.md R88). -/
  | tblrd (idx : Byte)
  /-- STAT, format N (42_control.md R132). -/
  | stat
  /-- ERRCLR, format N (42_control.md R134). -/
  | errclr
  deriving DecidableEq, Repr, Inhabited

/-- The three operand formats of ARG (R61). -/
inductive Format where
  /-- No operand: ARG is reserved and must be 0. -/
  | N
  /-- A byte operand in ARG[7:0]: ARG[31:8] is reserved and must be 0. -/
  | B
  /-- A word operand in ARG[31:0]: nothing is reserved. -/
  | W
  deriving DecidableEq, Repr, Inhabited

/-- The cause of an IllegalCommand (60_exceptions.md R140). -/
inductive Cause where
  /-- ECAUSE 1: OP is one of 0x09..0xFF (R65). -/
  | reservedOpcode
  /-- ECAUSE 2: OP is assigned and a reserved bit of ARG is not 0 (R66). -/
  | reservedArgBits
  deriving DecidableEq, Repr, Inhabited

/-- An operand as it is written on a line: a number, a character literal or a string literal (R72, R73). -/
inductive Operand where
  | num (n : Nat)
  | chr (c : Char)
  | str (cs : List Char)
  deriving DecidableEq, Repr, Inhabited

/-- A statement of the assembly language: a command, a word written out (R74), or a pseudo-instruction (R75 to R79).
Operands are the numbers that were written, in range or not: Stmt.wf checks them. -/
inductive Stmt where
  | nop
  | seed
  | updb (n : Nat)
  | fin
  | accrd
  | accwr (n : Nat)
  | tblrd (n : Nat)
  | stat
  | errclr
  /-- `.word40`: any 40-bit word, legal or not (R74). -/
  | word40 (n : Nat)
  /-- UPDATE s (R75). -/
  | update (s : List Nat)
  /-- CALC s1, ..., sk (R76). -/
  | calculate (segments : List (List Nat))
  /-- RESET, the wrapper's operation, not the reset of the core (R77). -/
  | reset
  /-- ADD s (R77). -/
  | add (s : List Nat)
  /-- VALUE (R77). -/
  | value
  /-- SAVE (R78). -/
  | save
  /-- RESTORE v (R78). -/
  | restore (n : Nat)
  /-- WAITTBL (R79). -/
  | waittbl
  deriving DecidableEq, Repr, Inhabited

end Sys2Proof
end

