-- ==== Sys2Proof/Decode.lean ====
section
/-! DEFINITION. The opcode table (30_encoding.md R64), the decoder (R69), total on every 40-bit word and rejecting by
cause, the encoder after it (R74), and the decoder as the opcode table numbers an instruction's bits. -/

namespace Sys2Proof

/-- What decoding a word answers: a command, or an illegal command with its cause (R69). -/
inductive Decoded where
  | cmd (i : Instr)
  | illegal (c : Cause)
  deriving DecidableEq, Repr, Inhabited

/-- One row of the opcode table: a word w is in the row when `w &&& mask = pattern` (R64). -/
structure OpcodeRow where
  op : Byte
  format : Format
  pattern : CmdWord
  mask : CmdWord
  deriving DecidableEq, Repr

/-- The nine rows in the table's order (R64). -/
def opcodeRows : List OpcodeRow :=
  [⟨0x00#8, .N, 0x0000000000#40, 0xFFFFFFFFFF#40⟩,
   ⟨0x01#8, .N, 0x0100000000#40, 0xFFFFFFFFFF#40⟩,
   ⟨0x02#8, .B, 0x0200000000#40, 0xFFFFFFFF00#40⟩,
   ⟨0x03#8, .N, 0x0300000000#40, 0xFFFFFFFFFF#40⟩,
   ⟨0x04#8, .N, 0x0400000000#40, 0xFFFFFFFFFF#40⟩,
   ⟨0x05#8, .W, 0x0500000000#40, 0xFF00000000#40⟩,
   ⟨0x06#8, .B, 0x0600000000#40, 0xFFFFFFFF00#40⟩,
   ⟨0x07#8, .N, 0x0700000000#40, 0xFFFFFFFFFF#40⟩,
   ⟨0x08#8, .N, 0x0800000000#40, 0xFFFFFFFFFF#40⟩]

/-- The word is in the row (R64). -/
def OpcodeRow.holds (r : OpcodeRow) (w : CmdWord) : Bool := (w &&& r.mask) == r.pattern

/-- OP, bits 39..32 of a command (R60). -/
def opField (w : CmdWord) : Byte := w.extractLsb' 32 8

/-- ARG, bits 31..0 of a command (R60). -/
def argField (w : CmdWord) : Word := w.extractLsb' 0 32

/-- The byte operand of format B: ARG[7:0] (R61, R62). -/
def byteField (arg : Word) : Byte := arg.extractLsb' 0 8

/-- The bits format B reserves: ARG[31:8] (R61). -/
def reservedOfB (arg : Word) : BitVec 24 := arg.extractLsb' 8 24

/-- Format N: no operand, all of ARG reserved (R61, R66). -/
def decodeN (i : Instr) (arg : Word) : Decoded :=
  if arg = 0#32 then .cmd i else .illegal .reservedArgBits

/-- Format B: a byte operand, ARG[31:8] reserved (R61, R66). -/
def decodeB (f : Byte → Instr) (arg : Word) : Decoded :=
  if reservedOfB arg = 0#24 then .cmd (f (byteField arg)) else .illegal .reservedArgBits

/-- Format W: a word operand, nothing reserved (R61). -/
def decodeW (f : Word → Instr) (arg : Word) : Decoded := .cmd (f arg)

/-- Decoding by OP and ARG. A reserved OP is cause 1 whatever ARG holds (R65, R69, R145). -/
def decodeFields (op : Byte) (arg : Word) : Decoded :=
  match op.toNat with
  | 0 => decodeN .nop arg
  | 1 => decodeN .seed arg
  | 2 => decodeB .updb arg
  | 3 => decodeN .fin arg
  | 4 => decodeN .accrd arg
  | 5 => decodeW .accwr arg
  | 6 => decodeB .tblrd arg
  | 7 => decodeN .stat arg
  | 8 => decodeN .errclr arg
  | _ => .illegal .reservedOpcode

/-- Decoding, a total function of the 40-bit word that reads no state (R69). -/
def decode (w : CmdWord) : Decoded := decodeFields (opField w) (argField w)

/-- The OP of each command (R64). -/
def Instr.opcode : Instr → Byte
  | .nop => 0x00#8
  | .seed => 0x01#8
  | .updb _ => 0x02#8
  | .fin => 0x03#8
  | .accrd => 0x04#8
  | .accwr _ => 0x05#8
  | .tblrd _ => 0x06#8
  | .stat => 0x07#8
  | .errclr => 0x08#8

/-- The ARG of each command: 0 for format N, `{0x000000, operand}` for format B, the operand for format W (R74). -/
def Instr.arg : Instr → Word
  | .nop => 0#32
  | .seed => 0#32
  | .updb b => b.setWidth 32
  | .fin => 0#32
  | .accrd => 0#32
  | .accwr v => v
  | .tblrd idx => idx.setWidth 32
  | .stat => 0#32
  | .errclr => 0#32

/-- The word `{OP, ARG}` (R60, R74). -/
def commandWord (op : Byte) (arg : Word) : CmdWord := op ++ arg

/-- The word of a command (R74). -/
def encode (i : Instr) : CmdWord := commandWord i.opcode i.arg

/-- The command word whose bits are w as the opcode table numbers them. A command is ONE word of 40 bits (R60), so bit
k of w is bit k of the word; bits at nbits and above are 0. None where a bit at 40 or above is set: no command has one. -/
def tableWord (nbits w : Nat) : Option CmdWord :=
  let bits := w % 2 ^ nbits
  if bits < 1099511627776 then some (BitVec.ofNat 40 bits) else none

/-- What the decoder reads from a command whose bits are w (as the opcode table numbers them); none where it refuses. -/
def decodeTableWord (nbits w : Nat) : Option Instr :=
  match tableWord nbits w with
  | none => none
  | some word =>
    match decode word with
    | .cmd i => some i
    | .illegal _ => none

end Sys2Proof
end

