-- ==== Sys2Proof/Machine/State.lean ====
section
/-! DEFINITION. The state of the core, the nine items of 10_state.md R33; the state a step acts on, which joins to it the
model's own `env`, the outside of the core (HOST and the schedule). The faults, the refusals and the state after reset. -/

namespace Sys2Proof.Machine

/-- TABLE, the core's only addressable storage (20_memory.md R40): pairs of an index and the 32-bit entry written there,
indices strictly rising. An index that is not listed is unwritten and holds no value (10_state.md R24). -/
abbrev Memory := List (Nat × Word)

/-- The model's own state: the outside of the core as plain data. No rule of the spec is about these fields. -/
structure Env where
  /-- The agents whose turns come next, the next one first. When none is listed the turn is a free value. -/
  turns : List Config.Agent
  /-- What HOST does next, in order; a held action stays first. When none is listed the action is a free value. -/
  script : List Config.HostAction
  /-- How many steps were taken: what the free values are applied to. -/
  tick : Nat
  /-- The commands HOST has appended to CMDQ since the last reset, oldest first (70_reset_and_hazards.md R176). -/
  sent : List CmdWord
  /-- The responses HOST has removed from RSPQ since the last reset, oldest first (70_reset_and_hazards.md R176). -/
  taken : List RspWord
  deriving DecidableEq, Repr, Inhabited

/-- THE COMPLETE STATE OF THE CORE: exactly the nine items of 10_state.md R33, at their widths. The bounds R33 puts on
three of them are those of `CoreRecord` (Safety.lean). -/
structure CoreState where
  /-- ACC, the accumulator (R22). -/
  acc : Word
  /-- SEEDED: ACC was written by SEED or ACCWR since the last reset (R23). -/
  seeded : Bool
  /-- TABLE (R24). -/
  table : Memory
  /-- TG_I: how many TABLE entries were written since reset, 0..256 (R25). -/
  tgI : BitVec 9
  /-- ILL: an illegal command was received since the last reset or ERRCLR (R26). -/
  ill : Bool
  /-- ECAUSE: the cause of the first such command, or 0 (R26). -/
  ecause : BitVec 2
  /-- EOP: the OP field of the first such command, or 0 (R26). -/
  eop : Byte
  /-- CMDQ, the commands that wait, oldest first (R27). -/
  cmdq : List CmdWord
  /-- RSPQ, the responses HOST has not removed, oldest first (R27). -/
  rspq : List RspWord
  deriving DecidableEq, Repr, Inhabited

/-- What a step acts on: the state of the core, and beside it the outside of the core, which R33 does not count as the
core's (DESIGN CHOICE, notes/assumptions/18). -/
structure State extends CoreState where
  /-- The outside of the core (the model's own). -/
  env : Env
  deriving DecidableEq, Repr, Inhabited

/-- Why the machine stops with a fault. -/
inductive Fault where
  /-- A command read a TABLE entry that holds no value. The hold of 70_reset_and_hazards.md R170 keeps the hardware from
  it; "If a model's step ever reaches such a read, that is a model fault" (60_exceptions.md R157). Raised by the read of
  TABLE in UPDB and TBLRD. Safe: the machine stops where the hardware has no value. -/
  | unwrittenTableEntry (index : Byte)
  deriving DecidableEq, Repr, Inhabited

/-- Why an instruction has no meaning. -/
inductive Refusal where
  /-- The instruction is not modelled yet. Raised by an arm of exec only; no arm raises it now. Safe. -/
  | notModelled (mnemonic : String)
  deriving DecidableEq, Repr, Inhabited

/-- The outcome of a meaning or of a step. -/
abbrev Result := Host.Outcome State Fault Refusal

/-- The outside at power-up: nothing is listed, so every turn and every action of HOST is a free value; HOST has sent
and taken nothing. DESIGN CHOICE (notes/assumptions/6): safe, no statement rests on it. -/
def Env.start : Env := { turns := [], script := [], tick := 0, sent := [], taken := [] }

/-- The machine right after reset (70_reset_and_hazards.md R160, R161). -/
def State.reset : State :=
  { acc := 0x00000000#32, seeded := false, table := [], tgI := 0#9, ill := false, ecause := 0#2, eop := 0x00#8,
    cmdq := [], rspq := [], env := Env.start }

end Sys2Proof.Machine
end

