-- ==== Sys2Proof/Machine/Flags.lean ====
section
/-! DEFINITION. The status bits: TABLE_READY, SEEDED, the error-capture fields and the STATUS word assembled from them
(10_state.md R23, R25, R26, R28, R30). -/

namespace Sys2Proof.Machine

/-- TABLE_READY = (TG_I == 256): defined from TG_I, no register of its own (R25). -/
def tableReady (s : State) : Bool := s.tgI == 256#9

/-- STATUS from its fields, reserved bits 0 (R28). -/
def statusFrom (tgCount : BitVec 9) (eop : Byte) (ecause : BitVec 2) (ill seeded ready : Bool) : Word :=
  (tgCount ++ eop ++ 0#2 ++ ecause ++ 0#1 ++ BitVec.ofBool ill ++ BitVec.ofBool seeded
    ++ BitVec.ofBool ready).setWidth 32

/-- The STATUS word (R28). -/
def statusWord (s : State) : Word := statusFrom s.tgI s.eop s.ecause s.ill s.seeded (tableReady s)

/-- TG_COUNT, bits 24..16 of STATUS (R28). -/
def statusTgCount (v : Word) : BitVec 9 := v.extractLsb' 16 9

/-- TABLE_READY, bit 0 of STATUS (R28). -/
def statusReady (v : Word) : Bool := v.getLsbD 0

/-- The value of ECAUSE for a cause (60_exceptions.md R140). -/
def causeCode : Cause → BitVec 2
  | .reservedOpcode => 1#2
  | .reservedArgBits => 2#2

/-- An illegal command's capture: the first one since reset or ERRCLR is kept (60_exceptions.md R143, R144). -/
def captureError (c : Cause) (op : Byte) (s : State) : State :=
  if s.ill then s else { s with ill := true, ecause := causeCode c, eop := op }

/-- The error-capture fields cleared (42_control.md R134). -/
def clearErrors (s : State) : State := { s with ill := false, ecause := 0#2, eop := 0x00#8 }

end Sys2Proof.Machine
end

