-- ==== Sys2Proof/Machine/Operands.lean ====
section
/-! DEFINITION. Operands and the words of the interface: the byte operand extended, the TABLE index of an update, the
response word and its fields (00_scope.md R8, 30_encoding.md R62, R63; 41_calculator_core.md R103). -/

namespace Sys2Proof.Machine

/-- zext_32 of a byte (R8): a byte operand is zero-extended, never sign-extended (R62). -/
def zextByte (b : Byte) : Word := b.setWidth 32

/-- The low byte of a word, `v & 0xFF` (R100). -/
def lowByte (v : Word) : Byte := v.extractLsb' 0 8

/-- The TABLE index of an update: `(a ^ zext_32(b))[7:0]` (R100, R103). -/
def updateIndex (a : Word) (b : Byte) : Byte := lowByte (a ^^^ zextByte b)

/-- The response word `{ERR, DATA}` (R63). -/
def responseWord (err : Bool) (data : Word) : RspWord := BitVec.ofBool err ++ data

/-- ERR, bit 32 of a response (R63). -/
def responseErr (r : RspWord) : Bool := r.getLsbD 32

/-- DATA, bits 31..0 of a response (R63). -/
def responseData (r : RspWord) : Word := r.extractLsb' 0 32

end Sys2Proof.Machine
end

