-- ==== Sys2Proof/Machine/Ops.lean ====
section
/-! DEFINITION. The named operations: reading and writing TABLE, writing ACC, responding, and taking the one exception,
IllegalCommand (00_scope.md R10). -/

namespace Sys2Proof.Machine

/-- Indices strictly rising from lo on, each a TABLE index. -/
def Memory.rising : Nat → Memory → Bool
  | _, [] => true
  | lo, (a, _) :: m => decide (lo ≤ a) && decide (a < Config.tableDepth) && Memory.rising (a + 1) m

/-- The canonical form: indices strictly rising and below 256. An unlisted index reads as no value, so no entry equals
what an unlisted index reads as. -/
def Memory.wf (m : Memory) : Bool := Memory.rising 0 m

/-- The entry at an index, none when it is unwritten (10_state.md R24). -/
def Memory.entry : Memory → Nat → Option Word
  | [], _ => none
  | (a, v) :: m, i => if i = a then some v else Memory.entry m i

/-- Writes the entry at an index, in place (10_state.md R24). -/
def Memory.put : Memory → Nat → Word → Memory
  | [], i, v => [(i, v)]
  | (a, u) :: m, i, v =>
    if i < a then (i, v) :: (a, u) :: m
    else if i = a then (i, v) :: m
    else (a, u) :: Memory.put m i v

/-- TableRead(i) as a value: none when the entry is unwritten (R10, R24). -/
def tableEntry (s : State) (i : Byte) : Option Word := s.table.entry i.toNat

/-- TableRead(i) inside a command: the command goes on with the entry. An unwritten entry is the model's fault
(60_exceptions.md R157). -/
def withTableRead (i : Byte) (s : State) (next : Word → Result) : Result :=
  match tableEntry s i with
  | some v => next v
  | none => .fault (.unwrittenTableEntry i)

/-- TableWrite(i, v): only TGEN calls it (R10). -/
def tableWrite (i : Byte) (v : Word) (s : State) : State := { s with table := s.table.put i.toNat v }

/-- ACC <- v (R10). -/
def setAcc (v : Word) (s : State) : State := { s with acc := v }

/-- SEEDED <- 1 (10_state.md R23). -/
def setSeeded (s : State) : State := { s with seeded := true }

/-- respond(err, data): appends the response to RSPQ (R10). -/
def respond (err : Bool) (data : Word) (s : State) : State := { s with rspq := s.rspq ++ [responseWord err data] }

/-- TAKING THE EXCEPTION: raise IllegalCommand(cause, op) (60_exceptions.md R143). It saves the cause and OP of the first
illegal command, sets ILL and responds (1, 0). There is no mode, vector or return (R149). -/
def raiseIllegal (c : Cause) (op : Byte) (s : State) : State := respond true 0x00000000#32 (captureError c op s)

/-- A queue of the given depth (one more than `beyondOne`) has room for one more entry (10_state.md R27). It is written
so that an empty queue has room whatever the depth is (R7: a depth is at least 1). -/
def hasRoom {α : Type} (beyondOne : Nat) : List α → Bool
  | [] => true
  | _ :: rest => decide (rest.length < beyondOne)

end Sys2Proof.Machine
end

