-- ==== Sys2Proof/Machine/TableGenerator.lean ====
section
/-! DEFINITION. The table generator (40_table_generator.md): the entry function, the TGEN step, and TBLRD. -/

namespace Sys2Proof.Machine

/-- One bit-step: the shift first, the XOR second (R80). -/
def bitstep (v : Word) : Word := if v.getLsbD 0 then (v >>> 1) ^^^ Config.poly else v >>> 1

/-- n bit-steps, one after the other (R81). -/
def bitsteps : Nat → Word → Word
  | 0, v => v
  | n + 1, v => bitsteps n (bitstep v)

/-- The table entry for an index: eight bit-steps applied to the index (R81). -/
def genEntry (i : Byte) : Word := bitsteps Config.bitStepsPerEntry (zextByte i)

/-- The index TGEN writes next: TG_I[7:0] (R83). -/
def tgenIndex (s : State) : Byte := s.tgI.extractLsb' 0 8

/-- TGEN's step is enabled exactly when TG_I < 256 (R83). -/
def tgenEnabled (s : State) : Bool := decide (s.tgI < 256#9)

/-- One table entry written and counted (R83). -/
def tgenWrite (s : State) : State :=
  let written := tableWrite (tgenIndex s) (genEntry (tgenIndex s)) s
  { written with tgI := s.tgI + 1#9 }

/-- TGEN's turn: its step when it is enabled, nothing otherwise (R83). -/
def tgenStep (s : State) : State := if tgenEnabled s then tgenWrite s else s

/-- The completed table: the entry of R81 at every index. -/
def completeTable : Memory := (List.range Config.tableDepth).map (fun i => (i, genEntry (BitVec.ofNat 8 i)))

/-- The state with all 256 TGEN steps taken (70_reset_and_hazards.md R179; the ROM schedule of R87). -/
def withTableComplete (s : State) : State := { s with table := completeTable, tgI := 256#9 }

/-- TBLRD idx: respond(0, TableRead(idx)) (R88). -/
def execTblrd (idx : Byte) (s : State) : Result := withTableRead idx s (fun v => .next (respond false v s))

end Sys2Proof.Machine
end

