-- ==== Sys2Proof/Machine/Calculator.lean ====
section
/-! DEFINITION. The calculator core (41_calculator_core.md): the byte-update function and its fold, and SEED, UPDB, FIN,
ACCRD and ACCWR. -/

namespace Sys2Proof.Machine

/-- An accumulator shifted by a byte and XORed with a table entry (R100, R103). -/
def combine (a entry : Word) : Word := (a >>> 8) ^^^ entry

/-- The byte-update function over the completed table (R100). -/
def upd1 (a : Word) (b : Byte) : Word := combine a (genEntry (updateIndex a b))

/-- The update over a byte sequence, the left fold of upd1 (R101). -/
def update (a : Word) : List Byte → Word
  | [] => a
  | b :: s => update (upd1 a b) s

/-- The finalized checksum of an accumulator: XOR with the constant, never with a loaded value (R104, C4). -/
def finalize (a : Word) : Word := a ^^^ Config.xorOut

/-- The checksum of a byte stream (R110). -/
def checksum (s : List Byte) : Word := finalize (update Config.seed s)

/-- SEED (R102). -/
def execSeed (s : State) : Result := .next (respond false 0x00000000#32 (setSeeded (setAcc Config.seed s)))

/-- UPDB b: the old ACC gives the index and the shifted value before ACC is written (R103). -/
def execUpdb (b : Byte) (s : State) : Result :=
  withTableRead (updateIndex s.acc b) s (fun v => .next (respond false 0x00000000#32 (setAcc (combine s.acc v) s)))

/-- FIN: respond(0, ACC ^ 0xFFFFFFFF); ACC is not changed (R104, R105). -/
def execFin (s : State) : Result := .next (respond false (finalize s.acc) s)

/-- ACCRD: respond(0, ACC) (R106). -/
def execAccrd (s : State) : Result := .next (respond false s.acc s)

/-- ACCWR v (R107). -/
def execAccwr (v : Word) (s : State) : Result := .next (respond false 0x00000000#32 (setSeeded (setAcc v s)))

end Sys2Proof.Machine
end

