-- ==== Sys2Proof/Machine/Control.lean ====
section
/-! DEFINITION. The control and status commands (42_control.md): NOP, STAT and ERRCLR. -/

namespace Sys2Proof.Machine

/-- NOP: respond(0, 0) and nothing else (R130). -/
def execNop (s : State) : Result := .next (respond false 0x00000000#32 s)

/-- STAT: respond(0, STATUS); reading clears no field (R132). TG_COUNT is the TG_I of this state (R133). -/
def execStat (s : State) : Result := .next (respond false (statusWord s) s)

/-- ERRCLR: ILL, ECAUSE and EOP cleared (R134). -/
def execErrclr (s : State) : Result := .next (respond false 0x00000000#32 (clearErrors s))

end Sys2Proof.Machine
end

