-- ==== Sys2Proof/Machine/Dispatch.lean ====
section
/-! DEFINITION. The meaning of each command, one arm per constructor. The ENGINE step (30_encoding.md R70) has already
removed the command from CMDQ, found room in RSPQ and tested the hold. -/

namespace Sys2Proof.Machine

def exec (i : Instr) (s : State) : Host.Outcome State Fault Refusal :=
  match i with
  | .nop => Sys2Proof.Machine.execNop s
  | .seed => Sys2Proof.Machine.execSeed s
  | .updb b => Sys2Proof.Machine.execUpdb b s
  | .fin => Sys2Proof.Machine.execFin s
  | .accrd => Sys2Proof.Machine.execAccrd s
  | .accwr v => Sys2Proof.Machine.execAccwr v s
  | .tblrd idx => Sys2Proof.Machine.execTblrd idx s
  | .stat => Sys2Proof.Machine.execStat s
  | .errclr => Sys2Proof.Machine.execErrclr s

end Sys2Proof.Machine
end

