-- ==== Sys2Proof/Machine/Agents.lean ====
section
/-! DEFINITION. The turns of the three agents (10_state.md R29): ENGINE (30_encoding.md R70), HOST
(70_reset_and_hazards.md R178), TGEN; which agent's turn it is; and placing a command where ENGINE takes its next one. -/

namespace Sys2Proof.Machine

/-- The command is a legal UPDB or TBLRD, the two that read TABLE (70_reset_and_hazards.md R170). -/
def needsTable : Decoded → Bool
  | .cmd (.updb _) => true
  | .cmd (.tblrd _) => true
  | _ => false

/-- THE TABLE HOLD: a legal UPDB or TBLRD while TG_I != 256. An illegal word is never held (R70, R146, R170). -/
def heldByTable (w : CmdWord) (s : State) : Bool := needsTable (decode w) && !tableReady s

/-- A command executed, legal or illegal, after it was removed from CMDQ (R70). -/
def executeWord (w : CmdWord) (s : State) : Result :=
  match decode w with
  | .illegal c => .next (raiseIllegal c (opField w) s)
  | .cmd i => exec i s

/-- ENGINE's turn: its step when CMDQ has a command, RSPQ has room and the command is not held; otherwise it has no step
and the state stays (R10, R70). -/
def engineStep (p : Config.Params) (s : State) : Result :=
  match s.cmdq with
  | [] => .next s
  | w :: rest =>
    if !hasRoom p.rspBeyondOne s.rspq || heldByTable w s then .next s
    else executeWord w { s with cmdq := rest }

/-- What HOST does on its turn: the first action listed, else a free value. -/
def hostAction (s : State) : Config.HostAction :=
  match s.env.script with
  | a :: _ => a
  | [] => Config.freeHostAction s.env.tick

/-- The core's state after a reset: every item at its reset value, the queues discarded (70_reset_and_hazards.md R160).
The outside keeps its turns and actions; what HOST sent and took is counted anew from here. -/
def assertReset (s : State) : State :=
  { State.reset with env := { s.env with sent := [], taken := [] } }

/-- The word appended to CMDQ (R178). -/
def sendCommand (w : CmdWord) (s : State) : State :=
  { s with cmdq := s.cmdq ++ [w], env := { s.env with sent := s.env.sent ++ [w] } }

/-- The oldest response removed from RSPQ and kept by HOST (R178). -/
def takeResponse (s : State) : State :=
  match s.rspq with
  | [] => s
  | r :: rest => { s with rspq := rest, env := { s.env with taken := s.env.taken ++ [r] } }

/-- The action can be taken now: a word is sent when CMDQ holds fewer than CMD_DEPTH, a response is taken when RSPQ is not
empty, reset is asserted at any time (R178). -/
def hostEnabled (p : Config.Params) (a : Config.HostAction) (s : State) : Bool :=
  match a with
  | .send _ => hasRoom p.cmdBeyondOne s.cmdq
  | .take => !s.rspq.isEmpty
  | .reset => true

/-- The effect of an action that can be taken (R160, R178). -/
def hostEffect (a : Config.HostAction) (s : State) : State :=
  match a with
  | .send w => sendCommand w s
  | .take => takeResponse s
  | .reset => assertReset s

/-- The state with the first listed action of HOST removed. -/
def dropAction (s : State) : State := { s with env := { s.env with script := s.env.script.tail } }

/-- The state in which HOST waits for an action that it is held on: it stays HOST's next action. -/
def keepAction (a : Config.HostAction) (s : State) : State :=
  { s with env := { s.env with script := a :: s.env.script.tail } }

/-- HOST's turn: its next action when that can be taken; otherwise HOST is held, and the action stays its next one (R178). -/
def hostStep (p : Config.Params) (s : State) : State :=
  let a := hostAction s
  if hostEnabled p a s then hostEffect a (dropAction s) else keepAction a s

/-- The agent whose turn it is: the first listed, else a free value (00_scope.md R11). -/
def nextAgent (s : State) : Config.Agent :=
  match s.env.turns with
  | a :: _ => a
  | [] => Config.freeTurn s.env.tick

/-- The turn used up and the step counted. -/
def useTurn (s : State) : State :=
  { s with env := { s.env with turns := s.env.turns.tail, tick := s.env.tick + 1 } }

/-- One atomic transition of one agent (00_scope.md R11, 20_memory.md R46). -/
def agentStep (p : Config.Params) (a : Config.Agent) (s : State) : Result :=
  match a with
  | .host => .next (hostStep p s)
  | .engine => engineStep p s
  | .tgen => .next (tgenStep s)

/-- RSPQ with room for one more response: as it is when it has room, else without its oldest entries. -/
def roomInResponses (p : Config.Params) (q : List RspWord) : List RspWord :=
  if hasRoom p.rspBeyondOne q then q else q.drop (q.length - p.rspBeyondOne)

/-- A command placed as the oldest of CMDQ, and all that it takes for the very next step to execute it: ENGINE has the
turn, RSPQ has room, and for a command that would be held the table is complete (notes/assumptions/10). -/
def placeCommand (p : Config.Params) (w : CmdWord) (s : State) : State :=
  let ready := if heldByTable w s then withTableComplete s else s
  { ready with
    cmdq := w :: s.cmdq.tail
    rspq := roomInResponses p s.rspq
    env := { s.env with turns := .engine :: s.env.turns } }

end Sys2Proof.Machine
end

