-- ==== Sys2Proof/Machine/Step.lean ====
section
/-! DEFINITION. One step: one atomic transition of the agent whose turn it is (00_scope.md R11). -/

namespace Sys2Proof.Machine

/-- A step of a core with the given queue depths (00_scope.md R7: the model takes them as arguments). -/
def stepWith (p : Config.Params) (s : State) : Host.Outcome State Fault Refusal :=
  agentStep p (nextAgent s) (useTurn s)

/-- A step of this core, whose depths are the open constants of Config. -/
def step (s : State) : Host.Outcome State Fault Refusal := stepWith Config.params s

/-- The state in which the very next step executes the command whose bits are w, as the opcode table numbers them. A word
with a bit beyond the 40 of a command places nothing. -/
def State.withFetchWord (s : State) (nbits w : Nat) : State :=
  match tableWord nbits w with
  | some word => placeCommand Config.params word s
  | none => s

end Sys2Proof.Machine
end

