-- ==== Sys2Proof/WellFormed.lean ====
section
/-! DEFINITION. Which assembly statements are well formed: "An operand out of range is an assembly error. It is not
truncated" (30_encoding.md R72). A command (Instr) holds operands of their fields' own widths, so every term of that
type is well formed (R45: every byte, every index and every 32-bit value is accepted). -/

namespace Sys2Proof

/-- A byte operand is in range: 0..255 (R72). -/
def byteInRange (n : Nat) : Bool := decide (n < 256)

/-- A word operand is in range: 0..0xFFFFFFFF (R72). -/
def wordInRange (n : Nat) : Bool := decide (n < 4294967296)

/-- A word written out has 40 bits (R60, R74). -/
def commandInRange (n : Nat) : Bool := decide (n < 1099511627776)

/-- Every operand of the statement is in range (R72). -/
def Stmt.wf : Stmt → Bool
  | .nop => true
  | .seed => true
  | .updb n => byteInRange n
  | .fin => true
  | .accrd => true
  | .accwr n => wordInRange n
  | .tblrd n => byteInRange n
  | .stat => true
  | .errclr => true
  | .word40 n => commandInRange n
  | .update s => s.all byteInRange
  | .calculate segments => segments.all (fun s => s.all byteInRange)
  | .reset => true
  | .add s => s.all byteInRange
  | .value => true
  | .save => true
  | .restore n => wordInRange n
  | .waittbl => true

end Sys2Proof
end

