-- ==== Sys2Proof/Machine/Assembler.lean ====
section
/-! DEFINITION. The assembler of CRC32-CMD (30_encoding.md R72 to R79): statements to command words, the listing form of a
word, and the text of one line read as a statement. It is HOST's tool: no step of the machine calls it. -/

namespace Sys2Proof.Asm

/-- UPDATE s: one UPDB a byte, in order; nothing for no bytes (R75). -/
def updateCommands (s : List Nat) : List Instr := s.map (fun n => .updb (BitVec.ofNat 8 n))

/-- CALC s1, ..., sk: SEED, UPDATE of each segment in order, FIN (R76). -/
def calcCommands (segments : List (List Nat)) : List Instr := [.seed] ++ segments.flatMap updateCommands ++ [.fin]

/-- The words a statement stands for, its operands taken to be in range (R74 to R79). -/
def expand : Stmt → List CmdWord
  | .nop => [encode .nop]
  | .seed => [encode .seed]
  | .updb n => [encode (.updb (BitVec.ofNat 8 n))]
  | .fin => [encode .fin]
  | .accrd => [encode .accrd]
  | .accwr n => [encode (.accwr (BitVec.ofNat 32 n))]
  | .tblrd n => [encode (.tblrd (BitVec.ofNat 8 n))]
  | .stat => [encode .stat]
  | .errclr => [encode .errclr]
  | .word40 n => [BitVec.ofNat 40 n]
  | .update s => (updateCommands s).map encode
  | .calculate segments => (calcCommands segments).map encode
  | .reset => [encode .seed]
  | .add s => (updateCommands s).map encode
  | .value => [encode .fin]
  | .save => [encode .accrd]
  | .restore n => [encode (.accwr (BitVec.ofNat 32 n))]
  | .waittbl => [encode (.tblrd 0x00#8)]

/-- Assembling a statement: its words, or none where an operand is out of range (R72, R74). -/
def assemble (t : Stmt) : Option (List CmdWord) := if t.wf then some (expand t) else none

/-- A hex digit in the listing form (R72). -/
def hexDigit (n : Nat) : Char :=
  match n with
  | 0 => '0' | 1 => '1' | 2 => '2' | 3 => '3' | 4 => '4' | 5 => '5' | 6 => '6' | 7 => '7'
  | 8 => '8' | 9 => '9' | 10 => 'A' | 11 => 'B' | 12 => 'C' | 13 => 'D' | 14 => 'E' | _ => 'F'

/-- The listing form of a command: its 10-hex-digit word, OP first (R72). -/
def listing (w : CmdWord) : List Char :=
  [36, 32, 28, 24, 20, 16, 12, 8, 4, 0].map (fun k => hexDigit (w.extractLsb' k 4).toNat)

/-- The byte a character stands for: its ASCII code (R73). Outside R73's two ranges the code is PRESUMED
(notes/assumptions/14). None for a character that has no ASCII code. -/
def asciiCode (c : Char) : Option Nat := if c.toNat < 128 then some c.toNat else none

/-- The bytes of a string literal, in order, with no terminator (R73). -/
def stringBytes : List Char → Option (List Nat)
  | [] => some []
  | c :: cs =>
    match asciiCode c, stringBytes cs with
    | some n, some ns => some (n :: ns)
    | _, _ => none

/-- A space or a tab. DESIGN CHOICE (notes/assumptions/13). -/
def isBlank (c : Char) : Bool := c == ' ' || c == '\t'

/-- The text after its leading blanks. -/
def skipBlanks : List Char → List Char
  | [] => []
  | c :: cs => if isBlank c then skipBlanks cs else c :: cs

/-- A character of a mnemonic or of a number: a letter, a digit or a full stop. -/
def isWordChar (c : Char) : Bool := c.isAlphanum || c == '.'

/-- The leading word of the text, and the rest. -/
def leadingWord : List Char → List Char × List Char
  | [] => ([], [])
  | c :: cs =>
    if isWordChar c then
      let (w, rest) := leadingWord cs
      (c :: w, rest)
    else ([], c :: cs)

/-- The value of a decimal digit. -/
def decimalDigit (c : Char) : Option Nat :=
  if 48 ≤ c.toNat ∧ c.toNat ≤ 57 then some (c.toNat - 48) else none

/-- The value of a hex digit, in either case. -/
def hexDigitValue (c : Char) : Option Nat :=
  if 48 ≤ c.toNat ∧ c.toNat ≤ 57 then some (c.toNat - 48)
  else if 65 ≤ c.toNat ∧ c.toNat ≤ 70 then some (c.toNat - 55)
  else if 97 ≤ c.toNat ∧ c.toNat ≤ 102 then some (c.toNat - 87)
  else none

/-- The digits read in the given base, most significant first, after the value read so far. -/
def digits (base : Nat) (value : Char → Option Nat) : Nat → List Char → Option Nat
  | acc, [] => some acc
  | acc, c :: cs =>
    match value c with
    | some d => digits base value (acc * base + d) cs
    | none => none

/-- A number: decimal, or hex after `0x` (R72). How many digits it may have, and their case, is a DESIGN CHOICE
(notes/assumptions/13). -/
def number : List Char → Option Nat
  | [] => none
  | '0' :: 'x' :: c :: cs => digits 16 hexDigitValue 0 (c :: cs)
  | c :: cs => digits 10 decimalDigit 0 (c :: cs)

/-- The characters up to the closing double quote, and the rest. -/
def stringBody : List Char → Option (List Char × List Char)
  | [] => none
  | c :: cs =>
    if c == '"' then some ([], cs)
    else
      match stringBody cs with
      | some (body, rest) => some (c :: body, rest)
      | none => none

/-- One operand at the start of the text, and the rest (R72, R73). -/
def operandAt : List Char → Option (Operand × List Char)
  | '\'' :: c :: '\'' :: rest => some (.chr c, rest)
  | '"' :: cs =>
    match stringBody cs with
    | some (body, rest) => some (.str body, rest)
    | none => none
  | cs =>
    match number (leadingWord cs).1 with
    | some n => some (.num n, (leadingWord cs).2)
    | none => none

/-- The operands of a line, separated by commas, up to the comment or the end. The first argument bounds their number. -/
def operandList : Nat → List Char → Option (List Operand)
  | 0, _ => none
  | k + 1, cs =>
    match operandAt (skipBlanks cs) with
    | none => none
    | some (o, rest) =>
      match skipBlanks rest with
      | [] => some [o]
      | ';' :: _ => some [o]
      | ',' :: more =>
        match operandList k more with
        | some os => some (o :: os)
        | none => none
      | _ => none

/-- A byte operand as a number: a number or a character literal (R72). -/
def byteOperand : Operand → Option Nat
  | .num n => some n
  | .chr c => asciiCode c
  | .str _ => none

/-- A word operand as a number (R72). -/
def wordOperand : Operand → Option Nat
  | .num n => some n
  | .chr _ => none
  | .str _ => none

/-- A segment: a string literal, or one byte operand (R75, R76). -/
def segmentOperand : Operand → Option (List Nat)
  | .num n => some [n]
  | .chr c => (asciiCode c).map (fun n => [n])
  | .str cs => stringBytes cs

/-- All the segments, none where one of them is not a segment. -/
def segmentOperands : List Operand → Option (List (List Nat))
  | [] => some []
  | o :: os =>
    match segmentOperand o, segmentOperands os with
    | some s, some ss => some (s :: ss)
    | _, _ => none

/-- The statement of a mnemonic that takes no operand. -/
def withNone (t : Stmt) : List Operand → Option Stmt
  | [] => some t
  | _ => none

/-- The statement of a mnemonic that takes one operand. -/
def withOne (f : Nat → Stmt) (value : Operand → Option Nat) : List Operand → Option Stmt
  | [o] => (value o).map f
  | _ => none

/-- The statement of a mnemonic that takes one or more segments. -/
def withSegments (f : List (List Nat) → Stmt) : List Operand → Option Stmt
  | [] => none
  | os => (segmentOperands os).map f

/-- The statement of a mnemonic, given in capitals, with its operands (R72, R74 to R79). R75 writes s as a string literal or
a list of byte operands; that UPDATE and ADD also take several strings, or strings among byte operands, and join them in
order, and that CALC takes each operand as a segment, is a DESIGN CHOICE (notes/assumptions/13). -/
def statement (mnemonic : List Char) (os : List Operand) : Option Stmt :=
  if mnemonic = ['N', 'O', 'P'] then withNone .nop os
  else if mnemonic = ['S', 'E', 'E', 'D'] then withNone .seed os
  else if mnemonic = ['U', 'P', 'D', 'B'] then withOne .updb byteOperand os
  else if mnemonic = ['F', 'I', 'N'] then withNone .fin os
  else if mnemonic = ['A', 'C', 'C', 'R', 'D'] then withNone .accrd os
  else if mnemonic = ['A', 'C', 'C', 'W', 'R'] then withOne .accwr wordOperand os
  else if mnemonic = ['T', 'B', 'L', 'R', 'D'] then withOne .tblrd byteOperand os
  else if mnemonic = ['S', 'T', 'A', 'T'] then withNone .stat os
  else if mnemonic = ['E', 'R', 'R', 'C', 'L', 'R'] then withNone .errclr os
  else if mnemonic = ['.', 'W', 'O', 'R', 'D', '4', '0'] then withOne .word40 wordOperand os
  else if mnemonic = ['U', 'P', 'D', 'A', 'T', 'E'] then withSegments (fun ss => .update ss.flatten) os
  else if mnemonic = ['C', 'A', 'L', 'C'] then withSegments .calculate os
  else if mnemonic = ['R', 'E', 'S', 'E', 'T'] then withNone .reset os
  else if mnemonic = ['A', 'D', 'D'] then withSegments (fun ss => .add ss.flatten) os
  else if mnemonic = ['V', 'A', 'L', 'U', 'E'] then withNone .value os
  else if mnemonic = ['S', 'A', 'V', 'E'] then withNone .save os
  else if mnemonic = ['R', 'E', 'S', 'T', 'O', 'R', 'E'] then withOne .restore wordOperand os
  else if mnemonic = ['W', 'A', 'I', 'T', 'T', 'B', 'L'] then withNone .waittbl os
  else none

/-- The operands of a line after its mnemonic: none at all where the line ends or a comment begins. -/
def lineOperands (cs : List Char) : Option (List Operand) :=
  match skipBlanks cs with
  | [] => some []
  | ';' :: _ => some []
  | rest => operandList (rest.length + 1) rest

/-- The text of one line: the statements on it (none on a blank line or one with only a comment, else one), or none
where it is no line of the language (R72). Mnemonics are case-insensitive. R72 writes a line as `MNEMONIC [operand]`; that
the blank between the two may be left out where the operand begins with a quote (`UPDB'1'`, `CALC"1"`) is a DESIGN CHOICE
(notes/assumptions/13). -/
def parseLine (cs : List Char) : Option (List Stmt) :=
  match skipBlanks cs with
  | [] => some []
  | ';' :: _ => some []
  | rest =>
    match lineOperands (leadingWord rest).2 with
    | none => none
    | some os => (statement ((leadingWord rest).1.map Char.toUpper) os).map (fun t => [t])

/-- All the statements' words, in order; none where one of them does not assemble. -/
def assembleAll : List Stmt → Option (List CmdWord)
  | [] => some []
  | t :: ts =>
    match assemble t, assembleAll ts with
    | some ws, some more => some (ws ++ more)
    | _, _ => none

/-- The words the text of one line assembles to (R72 to R79). -/
def assembleLine (cs : List Char) : Option (List CmdWord) :=
  match parseLine cs with
  | some ts => assembleAll ts
  | none => none

end Sys2Proof.Asm
end

