-- ==== Sys2Proof/Safety.lean ====
section
/-! DEFINITION. The terms claims are stated in: a ready core, the invariant of the core, runs, what a run observes, and
the sequential reference that every interleaving of the agents refines (70_reset_and_hazards.md R173, R176, R179). -/

namespace Sys2Proof.Machine

/-- The table is complete: TG_I = 256 and every entry holds its generated value (R179). -/
def Ready (s : State) : Prop := s.tgI = 256#9 ∧ ∀ i : Byte, tableEntry s i = some (genEntry i)

/-- TABLE and TG_I agree: entries 0..TG_I-1 hold their generated values and the others are unwritten (R25). -/
structure TableInv (s : State) : Prop where
  /-- TG_I holds a value in 0..256 (R25). -/
  count : s.tgI.toNat ≤ 256
  /-- The memory is in its canonical form. -/
  canonical : Memory.wf s.table = true
  /-- R25, R83. -/
  entries : ∀ i : Nat, i < 256 →
    s.table.entry i = if i < s.tgI.toNat then some (genEntry (BitVec.ofNat 8 i)) else none

/-- The error-capture registers are a capture of R140: all zero while ILL = 0, else a cause and an OP that raises it;
ECAUSE is never 3 and no ACCWR is ever captured. -/
def ErrorInv (s : State) : Prop :=
  (s.ill = false ∧ s.ecause = 0#2 ∧ s.eop = 0#8) ∨
  (s.ill = true ∧ s.ecause = 1#2 ∧ 9 ≤ s.eop.toNat) ∨
  (s.ill = true ∧ s.ecause = 2#2 ∧ s.eop.toNat ≤ 8 ∧ s.eop ≠ 5#8)

/-- The invariant of the core: TABLE follows TG_I, the capture is one of R140, and neither queue is longer than its depth
(R25, R27, R140). -/
structure Inv (p : Config.Params) (s : State) : Prop where
  table : TableInv s
  errors : ErrorInv s
  commands : s.cmdq.length ≤ p.cmdDepth
  responses : s.rspq.length ≤ p.rspDepth

/-- The bounds that R33 puts on the nine items: TABLE is an array of 256 entries, TG_I is in 0..256, and neither queue is
longer than its depth. -/
def CoreState.inBounds (p : Config.Params) (c : CoreState) : Bool :=
  Memory.wf c.table && decide (c.tgI.toNat ≤ 256) && decide (c.cmdq.length ≤ p.cmdDepth) &&
    decide (c.rspq.length ≤ p.rspDepth)

/-- THE RECORD OF R33: exactly its nine items, within its bounds, for a core with the given depths. -/
abbrev CoreRecord (p : Config.Params) := { c : CoreState // c.inBounds p = true }

/-- What an outcome leaves of the core. -/
def ofCore : Result → Host.Outcome CoreState Fault Refusal
  | .next t => .next t.toCoreState
  | .fault f => .fault f
  | .refused r => .refused r

/-- One outcome after another: the first that is no next state stops the run. -/
def andThen (r : Result) (f : State → Result) : Result :=
  match r with
  | .next t => f t
  | .fault e => .fault e
  | .refused e => .refused e

/-- n steps of a core with the given depths. -/
def runWith (p : Config.Params) : Nat → State → Result
  | 0, s => .next s
  | n + 1, s => andThen (stepWith p s) (runWith p n)

/-- Commands executed one after the other, as ENGINE does while RSPQ has room and none is held. -/
def executeAll : List CmdWord → State → Result
  | [], s => .next s
  | w :: ws, s => andThen (executeWord w s) (executeAll ws)

/-- n TGEN turns. -/
def tgenTurns : Nat → State → State
  | 0, s => s
  | n + 1, s => tgenTurns n (tgenStep s)

/-- The states of a core with the given depths that some schedule and some host lead to from the reset state. -/
inductive Reachable (p : Config.Params) : State → Prop where
  | start (e : Env) (hsent : e.sent = []) (htaken : e.taken = []) : Reachable p { State.reset with env := e }
  | step (s t : State) (hs : Reachable p s) (ht : stepWith p s = .next t) : Reachable p t

/-- The word is answered as an illegal command of cause 2, in every state: the response is (1, 0), ILL is set, the first
such command since reset or ERRCLR is captured, and nothing else changes (R66, R143). -/
def RejectedForItsReservedBits (w : CmdWord) : Prop :=
  decode w = .illegal .reservedArgBits ∧
  ∀ s : State, executeWord w s = .next
    { s with
      ill := true
      ecause := if s.ill then s.ecause else 2#2
      eop := if s.ill then s.eop else w.extractLsb' 32 8
      rspq := s.rspq ++ [responseWord true 0x00000000#32] }

/-- The word is SEED or ACCWR, the commands besides UPDB that write ACC (R22). -/
def loadsAcc (w : CmdWord) : Bool :=
  match decode w with
  | .cmd .seed => true
  | .cmd (.accwr _) => true
  | _ => false

/-- The bytes that the UPDB commands among the words combine, in order (R42). -/
def updbBytes : List CmdWord → List Byte
  | [] => []
  | w :: ws =>
    match decode w with
    | .cmd (.updb b) => b :: updbBytes ws
    | _ => updbBytes ws

/-- The words of a stream of bytes: one UPDB a byte, in order (R42). -/
def updbWords (s : List Byte) : List CmdWord := s.map (fun b => encode (.updb b))

/-! ## The sequential reference -/

/-- What the commands alone determine: everything but TABLE, TG_I and the queues. -/
structure Ref where
  acc : Word
  seeded : Bool
  ill : Bool
  ecause : BitVec 2
  eop : Byte
  deriving DecidableEq, Repr

/-- The reset values (R161). -/
def Ref.reset : Ref := { acc := 0#32, seeded := false, ill := false, ecause := 0#2, eop := 0#8 }

/-- What a command leaves, with the table complete from the start (R100, R102 to R107, R130 to R134, R143). -/
def Ref.next (r : Ref) (w : CmdWord) : Ref :=
  match decode w with
  | .cmd .nop => r
  | .cmd .seed => { r with acc := Config.seed, seeded := true }
  | .cmd (.updb b) => { r with acc := upd1 r.acc b }
  | .cmd .fin => r
  | .cmd .accrd => r
  | .cmd (.accwr v) => { r with acc := v, seeded := true }
  | .cmd (.tblrd _) => r
  | .cmd .stat => r
  | .cmd .errclr => { r with ill := false, ecause := 0#2, eop := 0#8 }
  | .illegal c => if r.ill then r else { r with ill := true, ecause := causeCode c, eop := opField w }

/-- What the commands leave, one after the other. -/
def Ref.after : Ref → List CmdWord → Ref
  | r, [] => r
  | r, w :: ws => Ref.after (r.next w) ws

/-- The response is the one the command gives. Only STAT leaves a choice: its TG_COUNT is some k ≤ 256, and TABLE_READY
says whether k is 256 (R133). -/
def Ref.answers (r : Ref) (w : CmdWord) (x : RspWord) : Prop :=
  match decode w with
  | .cmd .nop => x = responseWord false 0#32
  | .cmd .seed => x = responseWord false 0#32
  | .cmd (.updb _) => x = responseWord false 0#32
  | .cmd .fin => x = responseWord false (r.acc ^^^ 0xFFFFFFFF#32)
  | .cmd .accrd => x = responseWord false r.acc
  | .cmd (.accwr _) => x = responseWord false 0#32
  | .cmd (.tblrd idx) => x = responseWord false (genEntry idx)
  | .cmd .stat =>
    ∃ k : BitVec 9, k.toNat ≤ 256 ∧
      x = responseWord false (statusFrom k r.eop r.ecause r.ill r.seeded (k == 256#9))
  | .cmd .errclr => x = responseWord false 0#32
  | .illegal _ => x = responseWord true 0#32

/-- The responses are those of the commands, one for one and in order (R71). -/
def Ref.answersAll : Ref → List CmdWord → List RspWord → Prop
  | _, [], [] => True
  | r, w :: ws, x :: xs => r.answers w x ∧ Ref.answersAll (r.next w) ws xs
  | _, _, _ => False

/-- The part of the state that the commands alone determine. -/
def commandState (s : State) : Ref :=
  { acc := s.acc, seeded := s.seeded, ill := s.ill, ecause := s.ecause, eop := s.eop }

/-- Every response RSPQ has held since reset, oldest first: those HOST took and those still there. -/
def allResponses (s : State) : List RspWord := s.env.taken ++ s.rspq

/-- THE REFINEMENT: of the commands sent since reset, those no longer in CMDQ were executed in order, each gave its one
response, and they left what the sequential reference leaves (R50, R71). -/
def Refines (s : State) : Prop :=
  ∃ done : List CmdWord,
    s.env.sent = done ++ s.cmdq ∧
    commandState s = Ref.reset.after done ∧
    Ref.reset.answersAll done (allResponses s)

/-! ## What a run observes -/

/-- A run of the commands P since reset is complete (R176). -/
def RunComplete (P : List CmdWord) (s : State) : Prop :=
  s.env.sent = P ∧ s.cmdq = [] ∧ s.rspq = [] ∧ s.env.taken.length = P.length

/-- The observation of a run: the responses and the final registers (R176). -/
structure Observation where
  responses : List RspWord
  final : Ref
  deriving DecidableEq, Repr

/-- What is observed in a state. -/
def observe (s : State) : Observation := { responses := s.env.taken, final := commandState s }

/-- A STATUS value without its TG_COUNT and TABLE_READY fields, bits 24..16 and 0 (R173). -/
def withoutProgress (v : Word) : Word := v &&& 0xFE00FFFE#32

/-- Two responses to one command agree: they are equal, but that two STATs may differ in TG_COUNT and TABLE_READY where
one of them ran before the table was complete (R173). -/
def responsesAgree (w : CmdWord) (x y : RspWord) : Prop :=
  if decode w = .cmd .stat then
    responseErr x = responseErr y ∧
    withoutProgress (responseData x) = withoutProgress (responseData y) ∧
    (statusReady (responseData x) = true → statusReady (responseData y) = true → x = y)
  else x = y

/-- A STATUS value without its SEEDED, ILL, ECAUSE and EOP fields, bits 1, 2, 5..4 and 15..8 (R112). -/
def withoutSeededAndError (v : Word) : Word := v &&& 0xFFFF00C9#32

/-- Two responses to one command agree but for those four fields of a STAT (R112). -/
def agreeAfterSeed (w : CmdWord) (x y : RspWord) : Prop :=
  if decode w = .cmd .stat then
    responseErr x = responseErr y ∧ withoutSeededAndError (responseData x) = withoutSeededAndError (responseData y)
  else x = y

/-- Two sequences of responses to the same commands agree in the given sense, one for one. -/
def allAgree (agree : CmdWord → RspWord → RspWord → Prop) : List CmdWord → List RspWord → List RspWord → Prop
  | [], [], [] => True
  | w :: ws, x :: xs, y :: ys => agree w x y ∧ allAgree agree ws xs ys
  | _, _, _ => False

/-- The TG_COUNTs that the STATs among the commands returned, in order (R133). -/
def statCounts : List CmdWord → List RspWord → List Nat
  | w :: ws, x :: xs =>
    if decode w = .cmd .stat then (statusTgCount (responseData x)).toNat :: statCounts ws xs else statCounts ws xs
  | _, _ => []

end Sys2Proof.Machine
end

