-- ==== Sys2Proof/Certificates/Slice0/Obligations.lean ====
section
/-! DEFINITION. The statements for the provers. Each docstring names the rule of spec/ it formalises. A command's word is
written as 10 hex digits, OP first (30_encoding.md R72). -/

open Sys2Proof Sys2Proof.Machine

/-! ## Reset -/

/-- R161 (which the spec derives from R22 to R28): the reset values of every piece of state, STATUS among them. -/
def Obligations.ResetLeavesTheTabulatedValues : Prop :=
  State.reset.acc = 0x00000000#32 ∧ State.reset.seeded = false ∧
  (∀ i : Byte, tableEntry State.reset i = none) ∧
  State.reset.tgI = 0#9 ∧ statusTgCount (statusWord State.reset) = 0#9 ∧
  statusReady (statusWord State.reset) = false ∧
  State.reset.ill = false ∧ State.reset.ecause = 0#2 ∧ State.reset.eop = 0x00#8 ∧
  State.reset.cmdq = [] ∧ State.reset.rspq = [] ∧ statusWord State.reset = 0x00000000#32

/-- R160: when HOST asserts reset, in any state, one step sets every piece of state to its reset value and discards both
queues. -/
def Obligations.ResetIsOneStepFromAnyState : Prop :=
  ∀ (p : Config.Params) (s : State), nextAgent s = .host → hostAction (useTurn s) = .reset →
    ∃ t, stepWith p s = .next t ∧
      t.acc = 0x00000000#32 ∧ t.seeded = false ∧ (∀ i : Byte, tableEntry t i = none) ∧ t.tgI = 0#9 ∧
      t.ill = false ∧ t.ecause = 0#2 ∧ t.eop = 0x00#8 ∧ t.cmdq = [] ∧ t.rspq = []

/-! ## Decoding and the step -/

/-- The commands' own examples and every word of the table of 95_test_vectors.md V24 decode to what they stand for. -/
def Obligations.SpecWordsDecode : Prop :=
  decode 0x0000000000#40 = .cmd .nop ∧ decode 0x0100000000#40 = .cmd .seed ∧
  decode 0x0200000031#40 = .cmd (.updb 0x31#8) ∧ decode 0x02000000FF#40 = .cmd (.updb 0xFF#8) ∧
  decode 0x0300000000#40 = .cmd .fin ∧ decode 0x0400000000#40 = .cmd .accrd ∧
  decode 0x0512345678#40 = .cmd (.accwr 0x12345678#32) ∧ decode 0x05FFFFFFFF#40 = .cmd (.accwr 0xFFFFFFFF#32) ∧
  decode 0x06000000CE#40 = .cmd (.tblrd 0xCE#8) ∧ decode 0x0700000000#40 = .cmd .stat ∧
  decode 0x0800000000#40 = .cmd .errclr ∧
  decode 0x0900000000#40 = .illegal .reservedOpcode ∧ decode 0x0912345678#40 = .illegal .reservedOpcode ∧
  decode 0xFFFFFFFFFF#40 = .illegal .reservedOpcode ∧ decode 0x8000000000#40 = .illegal .reservedOpcode ∧
  decode 0x0000000001#40 = .illegal .reservedArgBits ∧ decode 0x0180000000#40 = .illegal .reservedArgBits ∧
  decode 0x0200000100#40 = .illegal .reservedArgBits ∧ decode 0x0300010000#40 = .illegal .reservedArgBits ∧
  decode 0x0400000002#40 = .illegal .reservedArgBits ∧ decode 0x0601000000#40 = .illegal .reservedArgBits ∧
  decode 0x0700000080#40 = .illegal .reservedArgBits ∧ decode 0x0800000001#40 = .illegal .reservedArgBits

/-- R65, R66, R145: a reserved OP is cause 1 whatever ARG holds; cause 2 is exactly an assigned OP whose reserved ARG bits
are not all 0 (ARG[31:8] of UPDB and TBLRD, nothing of ACCWR, all of ARG of the others). -/
def Obligations.ReservedEncodingsAreIllegal : Prop :=
  ∀ (op : Byte) (arg : Word),
    (decode (commandWord op arg) = .illegal .reservedOpcode ↔ 0x09 ≤ op.toNat) ∧
    (decode (commandWord op arg) = .illegal .reservedArgBits ↔
      op.toNat ≤ 0x08 ∧ op ≠ 0x05#8 ∧
      (if op = 0x02#8 ∨ op = 0x06#8 then arg.extractLsb' 8 24 ≠ 0#24 else arg ≠ 0#32))

/-- R64, and R67 and R141 (which the spec derives): a word is in a row of the opcode table exactly when it decodes to a command with the row's OP, no word
is in two rows, and a word is illegal exactly when it is in none. -/
def Obligations.DecodeAgreesWithTheOpcodeTable : Prop :=
  (∀ w : CmdWord, ∀ r ∈ opcodeRows, r.holds w = true ↔ ∃ i : Instr, decode w = .cmd i ∧ i.opcode = r.op) ∧
  (∀ w : CmdWord, ∀ r ∈ opcodeRows, ∀ r' ∈ opcodeRows, r.holds w = true → r'.holds w = true → r = r') ∧
  (∀ w : CmdWord, (∃ c, decode w = .illegal c) ↔ ∀ r ∈ opcodeRows, r.holds w = false)

/-- Decoding the word of a command gives it back, for every command with every operand. -/
def Obligations.DecodeOfEncodeIsTheCommand : Prop := ∀ i : Instr, decode (encode i) = .cmd i

/-- A word that decodes to a command is the word of that command: each command has one word. -/
def Obligations.EncodeOfDecodeIsTheWord : Prop := ∀ (w : CmdWord) (i : Instr), decode w = .cmd i → encode i = w

/-- A STEP RUNS THE DECODED COMMAND: on ENGINE's turn, with room in RSPQ and a command at the head of CMDQ that the table
hold lets through, the step is exec of that command, after the command is removed, the turn used up and the step counted. -/
def Obligations.StepExecutesTheDecodedCommand : Prop :=
  ∀ (s : State) (w : CmdWord) (rest : List CmdWord) (i : Instr),
    nextAgent s = .engine → s.cmdq = w :: rest → s.rspq.length < Config.params.rspDepth → decode w = .cmd i →
    (s.tgI = 256#9 ∨ ((∀ b, i ≠ .updb b) ∧ ∀ k, i ≠ .tblrd k)) →
    step s = exec i
      { s with cmdq := rest, env := { s.env with turns := s.env.turns.tail, tick := s.env.tick + 1 } }

/-- R70: ENGINE has a step exactly when CMDQ is not empty, RSPQ has room and the oldest command is not held; the step
removes that command and executes it or takes the exception. -/
def Obligations.EngineStepIsTheOneOfTheSpec : Prop :=
  ∀ (p : Config.Params) (s : State),
    (s.cmdq = [] → engineStep p s = .next s) ∧
    ∀ (w : CmdWord) (rest : List CmdWord), s.cmdq = w :: rest →
      (p.rspDepth ≤ s.rspq.length → engineStep p s = .next s) ∧
      (((∃ b, decode w = .cmd (.updb b)) ∨ ∃ k, decode w = .cmd (.tblrd k)) → s.tgI ≠ 256#9 →
        engineStep p s = .next s) ∧
      (s.rspq.length < p.rspDepth →
        (s.tgI = 256#9 ∨ ((∀ b, decode w ≠ .cmd (.updb b)) ∧ ∀ k, decode w ≠ .cmd (.tblrd k))) →
        (∀ c, decode w = .illegal c →
          engineStep p s = .next (raiseIllegal c (w.extractLsb' 32 8) { s with cmdq := rest })) ∧
        (∀ i, decode w = .cmd i → engineStep p s = exec i { s with cmdq := rest }))

/-! ## The commands -/

/-- R130: NOP's one word, never held, responds (0, 0) and changes nothing; a non-zero ARG is illegal with cause 2. -/
def Obligations.NopOnlyResponds : Prop :=
  decode 0x0000000000#40 = .cmd .nop ∧
  (∀ arg : Word, arg ≠ 0#32 → RejectedForItsReservedBits (commandWord 0x00#8 arg)) ∧
  (∀ s : State, heldByTable 0x0000000000#40 s = false) ∧
  ∀ s : State, exec .nop s = .next { s with rspq := s.rspq ++ [responseWord false 0x00000000#32] }

/-- R102: SEED's one word, never held, sets ACC to 0xFFFFFFFF and SEEDED to 1 and responds (0, 0). -/
def Obligations.SeedStartsACalculation : Prop :=
  decode 0x0100000000#40 = .cmd .seed ∧
  (∀ arg : Word, arg ≠ 0#32 → RejectedForItsReservedBits (commandWord 0x01#8 arg)) ∧
  (∀ s : State, heldByTable 0x0100000000#40 s = false) ∧
  ∀ s : State, exec .seed s =
    .next { s with acc := 0xFFFFFFFF#32, seeded := true, rspq := s.rspq ++ [responseWord false 0x00000000#32] }

/-- R103: UPDB's words, held while TG_I != 256; it reads TABLE at `(ACC ^ zext_32(b))[7:0]`, sets ACC to
`(ACC >> 8) ^` that entry and responds (0, 0). -/
def Obligations.UpdbCombinesOneByte : Prop :=
  (∀ b : Byte, decode (commandWord 0x02#8 (b.setWidth 32)) = .cmd (.updb b)) ∧
  (∀ arg : Word, arg.extractLsb' 8 24 ≠ 0#24 → RejectedForItsReservedBits (commandWord 0x02#8 arg)) ∧
  (∀ (b : Byte) (s : State), heldByTable (commandWord 0x02#8 (b.setWidth 32)) s = true ↔ s.tgI ≠ 256#9) ∧
  (∀ (arg : Word) (s : State), arg.extractLsb' 8 24 ≠ 0#24 → heldByTable (commandWord 0x02#8 arg) s = false) ∧
  ∀ (b : Byte) (s : State) (v : Word), tableEntry s ((s.acc ^^^ b.setWidth 32).extractLsb' 0 8) = some v →
    exec (.updb b) s =
      .next { s with acc := (s.acc >>> 8) ^^^ v, rspq := s.rspq ++ [responseWord false 0x00000000#32] }

/-- R104: FIN's one word, never held, responds (0, ACC ^ 0xFFFFFFFF) and changes nothing. -/
def Obligations.FinReadsTheChecksum : Prop :=
  decode 0x0300000000#40 = .cmd .fin ∧
  (∀ arg : Word, arg ≠ 0#32 → RejectedForItsReservedBits (commandWord 0x03#8 arg)) ∧
  (∀ s : State, heldByTable 0x0300000000#40 s = false) ∧
  ∀ s : State, exec .fin s = .next { s with rspq := s.rspq ++ [responseWord false (s.acc ^^^ 0xFFFFFFFF#32)] }

/-- R106: ACCRD's one word, never held, responds (0, ACC) and changes nothing. -/
def Obligations.AccrdReadsTheAccumulator : Prop :=
  decode 0x0400000000#40 = .cmd .accrd ∧
  (∀ arg : Word, arg ≠ 0#32 → RejectedForItsReservedBits (commandWord 0x04#8 arg)) ∧
  (∀ s : State, heldByTable 0x0400000000#40 s = false) ∧
  ∀ s : State, exec .accrd s = .next { s with rspq := s.rspq ++ [responseWord false s.acc] }

/-- R107: every word with OP 0x05 is ACCWR, never held; it sets ACC to v and SEEDED to 1 and responds (0, 0). -/
def Obligations.AccwrLoadsTheAccumulator : Prop :=
  (∀ v : Word, decode (commandWord 0x05#8 v) = .cmd (.accwr v)) ∧
  (∀ (v : Word) (s : State), heldByTable (commandWord 0x05#8 v) s = false) ∧
  ∀ (v : Word) (s : State), exec (.accwr v) s =
    .next { s with acc := v, seeded := true, rspq := s.rspq ++ [responseWord false 0x00000000#32] }

/-- R88: TBLRD's words, held while TG_I != 256; it responds (0, TABLE[idx]) and changes nothing. On a completed table
idx 0x00 gives 0x00000000, idx 0x80 gives 0xEDB88320 and idx 0x01 gives 0x77073096; an entry once read reads the same
until reset. -/
def Obligations.TblrdReadsATableEntry : Prop :=
  (∀ idx : Byte, decode (commandWord 0x06#8 (idx.setWidth 32)) = .cmd (.tblrd idx)) ∧
  (∀ arg : Word, arg.extractLsb' 8 24 ≠ 0#24 → RejectedForItsReservedBits (commandWord 0x06#8 arg)) ∧
  (∀ (idx : Byte) (s : State), heldByTable (commandWord 0x06#8 (idx.setWidth 32)) s = true ↔ s.tgI ≠ 256#9) ∧
  (∀ (arg : Word) (s : State), arg.extractLsb' 8 24 ≠ 0#24 → heldByTable (commandWord 0x06#8 arg) s = false) ∧
  (∀ (idx : Byte) (s : State) (v : Word), tableEntry s idx = some v →
    exec (.tblrd idx) s = .next { s with rspq := s.rspq ++ [responseWord false v] }) ∧
  (∀ s : State, Ready s → tableEntry s 0x00#8 = some 0x00000000#32 ∧ tableEntry s 0x80#8 = some 0xEDB88320#32 ∧
    tableEntry s 0x01#8 = some 0x77073096#32) ∧
  ∀ (p : Config.Params) (s t : State) (idx : Byte) (v : Word), Inv p s → tableEntry s idx = some v →
    stepWith p s = .next t → ¬ (nextAgent s = .host ∧ hostAction (useTurn s) = .reset) → tableEntry t idx = some v

/-- R132: STAT's one word, never held, responds (0, STATUS) and changes nothing. A completed UPDB or TBLRD shows that TG_I
is 256, and once TG_I is 256 it stays so until reset, so that a later STAT shows TABLE_READY = 1 and TG_COUNT = 256;
before that every TG_COUNT from 0 to 256 can be seen. -/
def Obligations.StatReadsStatus : Prop :=
  decode 0x0700000000#40 = .cmd .stat ∧
  (∀ arg : Word, arg ≠ 0#32 → RejectedForItsReservedBits (commandWord 0x07#8 arg)) ∧
  (∀ s : State, heldByTable 0x0700000000#40 s = false) ∧
  (∀ s : State, exec .stat s = .next { s with rspq := s.rspq ++ [responseWord false (statusWord s)] }) ∧
  (∀ s : State, s.tgI = 256#9 ↔ statusReady (statusWord s) = true) ∧
  (∀ s : State, s.tgI = 256#9 ↔ statusTgCount (statusWord s) = 256#9) ∧
  (∀ (p : Config.Params) (s t : State), s.tgI = 256#9 → stepWith p s = .next t →
    ¬ (nextAgent s = .host ∧ hostAction (useTurn s) = .reset) → t.tgI = 256#9) ∧
  (∀ (p : Config.Params) (s t : State) (w : CmdWord) (rest : List CmdWord), s.cmdq = w :: rest →
    needsTable (decode w) = true → engineStep p s = .next t → t.cmdq ≠ s.cmdq → t.tgI = 256#9) ∧
  (∀ (p : Config.Params) (k : Nat), k ≤ 256 →
    ∃ s : State, Reachable p s ∧ (statusTgCount (statusWord s)).toNat = k) ∧
  ∀ s : State, s.tgI = 256#9 → s.seeded = true → s.ill = false → ErrorInv s → statusWord s = 0x01000003#32

/-- R134: ERRCLR's one word, never held, sets ILL, ECAUSE and EOP to 0 and responds (0, 0). -/
def Obligations.ErrclrClearsTheCapture : Prop :=
  decode 0x0800000000#40 = .cmd .errclr ∧
  (∀ arg : Word, arg ≠ 0#32 → RejectedForItsReservedBits (commandWord 0x08#8 arg)) ∧
  (∀ s : State, heldByTable 0x0800000000#40 s = false) ∧
  ∀ s : State, exec .errclr s =
    .next { s with ill := false, ecause := 0#2, eop := 0x00#8,
                   rspq := s.rspq ++ [responseWord false 0x00000000#32] }

/-- R100, on the machine: with the table complete UPDB b sets ACC to upd1(ACC, b), whose index is `a[7:0] ^ b` and whose
shifted part has bits [31:24] zero. -/
def Obligations.ReadyUpdbIsTheUpdateFunction : Prop :=
  (∀ (a : Word) (b : Byte), upd1 a b = (a >>> 8) ^^^ genEntry (a.extractLsb' 0 8 ^^^ b) ∧
    (a >>> 8).extractLsb' 24 8 = 0#8) ∧
  ∀ (s : State) (b : Byte), Ready s → exec (.updb b) s =
    .next { s with acc := upd1 s.acc b, rspq := s.rspq ++ [responseWord false 0x00000000#32] }

/-- R28: the fields of the STATUS word. All of it is 0 at reset, the reserved bits read 0, ECAUSE 3 is never shown, and
ILL, ECAUSE and EOP are sticky: only ERRCLR clears them. -/
def Obligations.StatusWordHasItsFields : Prop :=
  statusWord State.reset = 0x00000000#32 ∧
  (∀ s : State, ErrorInv s → (statusWord s).extractLsb' 4 2 ≠ 3#2) ∧
  (∀ s : State,
    (statusWord s).getLsbD 0 = (s.tgI == 256#9) ∧ (statusWord s).getLsbD 1 = s.seeded ∧
    (statusWord s).getLsbD 2 = s.ill ∧ (statusWord s).getLsbD 3 = false ∧
    (statusWord s).extractLsb' 4 2 = s.ecause ∧ (statusWord s).extractLsb' 6 2 = 0#2 ∧
    (statusWord s).extractLsb' 8 8 = s.eop ∧ (statusWord s).extractLsb' 16 9 = s.tgI ∧
    (statusWord s).extractLsb' 25 7 = 0#7) ∧
  ∀ (w : CmdWord) (s t : State), executeWord w s = .next t →
    (decode w = .cmd .errclr → (statusWord t).extractLsb' 2 14 = 0#14) ∧
    (decode w ≠ .cmd .errclr → s.ill = true → (statusWord t).extractLsb' 2 14 = (statusWord s).extractLsb' 2 14)

/-- R47: FIN, ACCRD, TBLRD, STAT and NOP change nothing but RSPQ, by one response. The same command again, after any number
of TGEN steps, gives the same response; STAT's may differ in TG_COUNT and TABLE_READY only. -/
def Obligations.ReadingCommandsChangeNothing : Prop :=
  ∀ (i : Instr) (s t : State),
    (i = .fin ∨ i = .accrd ∨ (∃ k, i = .tblrd k) ∨ i = .stat ∨ i = .nop) → exec i s = .next t →
    ∃ r, t = { s with rspq := s.rspq ++ [r] } ∧
      ∀ n : Nat, TableInv s → ∃ r',
        exec i (tgenTurns n t) = .next { tgenTurns n t with rspq := (tgenTurns n t).rspq ++ [r'] } ∧
        (if i = .stat then
          responseErr r' = responseErr r ∧ withoutProgress (responseData r') = withoutProgress (responseData r)
         else r' = r)

/-- THE FRAME of every command: one response is appended; TABLE, TG_I, CMDQ and the outside are unchanged; ACC is unchanged
but by SEED, UPDB and ACCWR, SEEDED but by SEED and ACCWR, the error fields but by ERRCLR. -/
def Obligations.CommandsLeaveWhatTheyDoNotName : Prop :=
  ∀ (i : Instr) (s t : State), exec i s = .next t →
    (∃ r, t.rspq = s.rspq ++ [r]) ∧
    (∀ k : Byte, tableEntry t k = tableEntry s k) ∧ t.tgI = s.tgI ∧ t.cmdq = s.cmdq ∧ t.env = s.env ∧
    (i ≠ .seed → (∀ b, i ≠ .updb b) → (∀ v, i ≠ .accwr v) → t.acc = s.acc) ∧
    (i ≠ .seed → (∀ v, i ≠ .accwr v) → t.seeded = s.seeded) ∧
    (i ≠ .errclr → t.ill = s.ill ∧ t.ecause = s.ecause ∧ t.eop = s.eop)

/-- Every command completes on a ready core, whatever its operand: exec answers a next state with one more response, ERR 0. -/
def Obligations.EveryCommandCompletesOnAReadyCore : Prop :=
  ∀ (i : Instr) (s : State), Ready s →
    ∃ (t : State) (data : Word), exec i s = .next t ∧ t.rspq = s.rspq ++ [responseWord false data]

/-- R157, last clause (which the spec derives from R24 and R170): the only stop of a meaning is the model fault of reading an unwritten TABLE entry. -/
def Obligations.OnlyAnUnwrittenEntryStopsACommand : Prop :=
  ∀ (i : Instr) (s : State),
    (∀ f : Fault, exec i s = .fault f ↔
      ((∃ b, i = .updb b ∧ tableEntry s (updateIndex s.acc b) = none ∧ f = .unwrittenTableEntry (updateIndex s.acc b)) ∨
       (∃ k, i = .tblrd k ∧ tableEntry s k = none ∧ f = .unwrittenTableEntry k))) ∧
    ∀ r : Refusal, exec i s ≠ .refused r

/-! ## The exception -/

/-- R143: an illegal command at the head of CMDQ, with room in RSPQ, is removed; the first one since reset or ERRCLR is
captured, ILL is set, the response is (1, 0), and nothing else changes. -/
def Obligations.IllegalCommandIsCapturedAndAnswered : Prop :=
  ∀ (p : Config.Params) (s : State) (w : CmdWord) (rest : List CmdWord) (c : Cause),
    s.cmdq = w :: rest → s.rspq.length < p.rspDepth → decode w = .illegal c →
    engineStep p s = .next
      { s with
        cmdq := rest
        ill := true
        ecause := if s.ill = false then (if c = .reservedOpcode then 1#2 else 2#2) else s.ecause
        eop := if s.ill = false then w.extractLsb' 32 8 else s.eop
        rspq := s.rspq ++ [responseWord true 0x00000000#32] }

/-- R144: while ILL = 1 every further illegal command leaves ECAUSE and EOP and is answered (1, 0); after ERRCLR or reset
ILL, ECAUSE and EOP are 0 and the next illegal command is captured. -/
def Obligations.FirstIllegalCommandIsKept : Prop :=
  (∀ (ws : List CmdWord) (s : State), s.ill = true → (∀ w ∈ ws, ∃ c, decode w = .illegal c) →
    executeAll ws s = .next { s with rspq := s.rspq ++ List.replicate ws.length (responseWord true 0x00000000#32) }) ∧
  ∀ (w : CmdWord) (c : Cause) (s t : State), decode w = .illegal c →
    (exec .errclr s = .next t ∨ t = assertReset s) →
    t.ill = false ∧ t.ecause = 0#2 ∧ t.eop = 0x00#8 ∧
    ∃ u, executeWord w t = .next u ∧ u.ill = true ∧ u.ecause = causeCode c ∧ u.eop = opField w

/-- R146: no illegal word is held and only a legal UPDB or TBLRD is; a word with OP 0x02 or 0x06 and ARG[31:8] not 0 is
reported at once while TG_I < 256. -/
def Obligations.IllegalReaderIsNotHeld : Prop :=
  (∀ (s : State) (w : CmdWord) (c : Cause), decode w = .illegal c → heldByTable w s = false) ∧
  (∀ (s : State) (w : CmdWord), heldByTable w s = true →
    (∃ b, decode w = .cmd (.updb b)) ∨ ∃ k, decode w = .cmd (.tblrd k)) ∧
  ∀ (p : Config.Params) (s : State) (op : Byte) (arg : Word) (rest : List CmdWord),
    (op = 0x02#8 ∨ op = 0x06#8) → arg.extractLsb' 8 24 ≠ 0#24 → s.tgI.toNat < 256 →
    s.cmdq = commandWord op arg :: rest → s.rspq.length < p.rspDepth →
    ∃ t, engineStep p s = .next t ∧ t.cmdq = rest ∧ t.ill = true ∧
      (s.ill = false → t.ecause = 2#2 ∧ t.eop = op) ∧ t.acc = s.acc ∧ t.tgI = s.tgI ∧ t.table = s.table ∧
      t.rspq = s.rspq ++ [responseWord true 0x00000000#32]

/-! ## The table -/

/-- R83: a TGEN step is enabled exactly when TG_I < 256; it writes the generated value at index TG_I and counts it, and
changes nothing else; after k steps from reset the first k entries are written, k up to 256, and then it has no step. -/
def Obligations.TgenFillsTheTableInOrder : Prop :=
  (∀ s : State, s.tgI.toNat < 256 →
    (tgenStep s).tgI.toNat = s.tgI.toNat + 1 ∧
    (∀ i : Byte, tableEntry (tgenStep s) i =
      if i.toNat = s.tgI.toNat then some (genEntry i) else tableEntry s i) ∧
    { tgenStep s with table := s.table, tgI := s.tgI } = s) ∧
  (∀ s : State, 256 ≤ s.tgI.toNat → tgenStep s = s) ∧
  ∀ (e : Env) (k : Nat), k ≤ 256 →
    (tgenTurns k { State.reset with env := e }).tgI.toNat = k ∧
    ∀ i : Byte, tableEntry (tgenTurns k { State.reset with env := e }) i =
      if i.toNat < k then some (genEntry i) else none

/-- R86 (which the spec derives from R83 and R160): from every state of the invariant, any schedule with no reset in which TGEN has as many turns as there are
entries missing (256 at most) reaches TG_I = 256. -/
def Obligations.TgenTurnsCompleteTheTable : Prop :=
  ∀ (p : Config.Params) (s : State) (ts more : List Config.Agent),
    Inv p s → s.env.turns = ts ++ more → (∀ a ∈ s.env.script, a ≠ .reset) →
    ts.count .host ≤ s.env.script.length → 256 - s.tgI.toNat ≤ ts.count .tgen →
    ∃ t, runWith p ts.length s = .next t ∧ t.tgI = 256#9

/-- R170: a legal UPDB or TBLRD at the head of CMDQ while TG_I != 256 stays there, and so does all behind it; with
TG_I = 256 it executes; no other word is held. -/
def Obligations.TableReaderWaitsForTheTable : Prop :=
  (∀ (p : Config.Params) (s : State) (w : CmdWord) (rest : List CmdWord) (i : Instr),
    s.cmdq = w :: rest → decode w = .cmd i → ((∃ b, i = .updb b) ∨ ∃ k, i = .tblrd k) →
    (s.tgI ≠ 256#9 → engineStep p s = .next s) ∧
    (s.tgI = 256#9 → s.rspq.length < p.rspDepth → engineStep p s = exec i { s with cmdq := rest })) ∧
  ∀ (s : State) (w : CmdWord), (∀ b, decode w ≠ .cmd (.updb b)) → (∀ k, decode w ≠ .cmd (.tblrd k)) →
    heldByTable w s = false

/-- R172 (which the spec derives from R86), with its fairness: a held command is executed by the ENGINE turn after 256 TGEN turns. -/
def Obligations.HeldCommandIsReleased : Prop :=
  ∀ (p : Config.Params) (s : State) (w : CmdWord) (rest : List CmdWord) (more : List Config.Agent),
    Inv p s → s.cmdq = w :: rest → heldByTable w s = true → s.rspq.length < p.rspDepth →
    s.env.turns = List.replicate 256 .tgen ++ .engine :: more →
    ∃ (t : State) (data : Word), runWith p 257 s = .next t ∧ t.cmdq = rest ∧
      t.rspq = s.rspq ++ [responseWord false data] ∧ t.tgI = 256#9

/-- R89 (which the spec derives from R80 and R81): the laws of the table, and its entries at the powers of two. -/
def Obligations.TableEntriesAreLinear : Prop :=
  genEntry 0x00#8 = 0x00000000#32 ∧ genEntry 0x80#8 = 0xEDB88320#32 ∧
  (∀ x y : Byte, genEntry (x ^^^ y) = genEntry x ^^^ genEntry y) ∧
  genEntry 0x01#8 = 0x77073096#32 ∧ genEntry 0x02#8 = 0xEE0E612C#32 ∧ genEntry 0x04#8 = 0x076DC419#32 ∧
  genEntry 0x08#8 = 0x0EDB8832#32 ∧ genEntry 0x10#8 = 0x1DB71064#32 ∧ genEntry 0x20#8 = 0x3B6E20C8#32 ∧
  genEntry 0x40#8 = 0x76DC4190#32

/-- R51: an ENGINE turn and a TGEN turn give the same state in either order, unless the command is a STAT or is a table
reader whose hold that TGEN step lifts. -/
def Obligations.EngineAndTgenTurnsCommute : Prop :=
  ∀ (p : Config.Params) (s t : State), engineStep p s = .next t →
    (∀ w rest, s.cmdq = w :: rest → decode w ≠ .cmd .stat ∧ (heldByTable w s = true → s.tgI ≠ 255#9)) →
    engineStep p (tgenStep s) = .next (tgenStep t)

/-! ## The calculation -/

/-- R111 (which the spec derives from R80, R81 and R100): the byte update is eight bit-steps applied to ACC XOR the byte. -/
def Obligations.UpdateIsBitSerial : Prop :=
  ∀ (a : Word) (b : Byte), upd1 a b = bitsteps 8 (a ^^^ b.setWidth 32)

/-- R109 (which the spec derives from R101): chunking invariance, for two segments and for any partition. -/
def Obligations.UpdateIgnoresSegmentBoundaries : Prop :=
  (∀ (a : Word) (s₁ s₂ : List Byte), update (update a s₁) s₂ = update a (s₁ ++ s₂)) ∧
  ∀ (a : Word) (segments : List (List Byte)), segments.foldl update a = update a segments.flatten

/-- R108 (which the spec derives from R103 and the frames): on a ready core a run of words in which no SEED and no ACCWR stands leaves ACC = update(ACC0, bytes of its
UPDBs), whatever else is interleaved with them. -/
def Obligations.UninterruptedRunIsTheUpdateFold : Prop :=
  ∀ (s : State) (ws : List CmdWord), Ready s → (∀ w ∈ ws, loadsAcc w = false) →
    ∃ t, executeAll ws s = .next t ∧ t.acc = update s.acc (updbBytes ws)

/-- R76, R110: on a ready core the words of CALC s1, ..., sk answer (0, 0) each but the last, FIN, whose DATA is the
checksum of the segments joined; the check values of the source. -/
def Obligations.CalcReturnsTheChecksum : Prop :=
  (∀ (s : State) (segments : List (List Nat)) (ws : List CmdWord), Ready s →
    Asm.assemble (.calculate segments) = some ws →
    ∃ t, executeAll ws s = .next t ∧
      t.rspq = s.rspq ++ List.replicate (ws.length - 1) (responseWord false 0x00000000#32) ++
        [responseWord false (update 0xFFFFFFFF#32 (segments.flatten.map (BitVec.ofNat 8)) ^^^ 0xFFFFFFFF#32)]) ∧
  checksum [] = 0x00000000#32 ∧
  checksum [0x31#8, 0x32#8, 0x33#8, 0x34#8, 0x35#8, 0x36#8, 0x37#8, 0x38#8, 0x39#8] = 0xCBF43926#32

/-- R105: FIN is a peek. After SEED its DATA is the checksum of exactly the bytes combined so far, and the UPDBs that follow
it go on from ACC as it was; of any run, what follows a FIN goes on as if it had not been sent. -/
def Obligations.FinIsAPeek : Prop :=
  (∀ (s : State) (ws₁ ws₂ : List CmdWord), Ready s → (∀ w ∈ ws₁, loadsAcc w = false) →
    (∀ w ∈ ws₂, loadsAcc w = false) →
    ∃ t before rs, executeAll (encode .seed :: ws₁ ++ encode .fin :: ws₂) s = .next t ∧
      t.rspq = s.rspq ++ before ++ responseWord false (checksum (updbBytes ws₁)) :: rs ∧
      before.length = ws₁.length + 1 ∧ t.acc = update 0xFFFFFFFF#32 (updbBytes ws₁ ++ updbBytes ws₂)) ∧
  ∀ (s m u : State) (ws₁ ws₂ : List CmdWord),
    executeAll ws₁ s = .next m → executeAll ws₂ m = .next u →
    ∃ t rs, executeAll (ws₁ ++ encode .fin :: ws₂) s = .next t ∧ commandState t = commandState u ∧
      u.rspq = m.rspq ++ rs ∧ t.rspq = m.rspq ++ responseWord false (m.acc ^^^ 0xFFFFFFFF#32) :: rs

/-- R112 (which the spec derives from R102 and R103): after SEED, ACC and every response of the commands that follow do not depend on what came before, but for the
SEEDED, ILL, ECAUSE and EOP fields of a STAT, which are not part of this law. -/
def Obligations.ReseedingForgetsThePast : Prop :=
  ∀ (s₁ s₂ : State) (ws : List CmdWord), Ready s₁ → Ready s₂ →
    ∃ t₁ t₂ rs₁ rs₂, executeAll (encode .seed :: ws) s₁ = .next t₁ ∧ executeAll (encode .seed :: ws) s₂ = .next t₂ ∧
      t₁.acc = t₂.acc ∧ t₁.rspq = s₁.rspq ++ rs₁ ∧ t₂.rspq = s₂.rspq ++ rs₂ ∧
      allAgree agreeAfterSeed (encode .seed :: ws) rs₁ rs₂

/-- R113: UPDB, FIN and ACCRD do not check SEEDED and raise nothing. While no command executed since reset is a SEED or an
ACCWR, ACC is the update of 0 by the bytes combined; the bytes "123456789" then give another value than the standard
checksum. -/
def Obligations.UnseededUseComputesFromAcc : Prop :=
  (∀ (s t : State) (i : Instr) (x : Bool), ((∃ b, i = .updb b) ∨ i = .fin ∨ i = .accrd) → exec i s = .next t →
    exec i { s with seeded := x } = .next { t with seeded := x } ∧
    t.ill = s.ill ∧ ∃ v, t.rspq = s.rspq ++ [responseWord false v]) ∧
  (∀ (p : Config.Params) (s : State), Reachable p s →
    (∀ w ∈ s.env.sent.take (s.env.sent.length - s.cmdq.length), loadsAcc w = false) →
    s.acc = update 0x00000000#32 (updbBytes (s.env.sent.take (s.env.sent.length - s.cmdq.length)))) ∧
  update 0x00000000#32 [0x31#8, 0x32#8, 0x33#8, 0x34#8, 0x35#8, 0x36#8, 0x37#8, 0x38#8, 0x39#8] = 0x2DFD2D88#32 ∧
  finalize 0x2DFD2D88#32 = 0xD202D277#32

/-- R56, R78: one calculation saved with ACCRD goes on after any commands when the DATA of that response is loaded with
ACCWR. -/
def Obligations.SavedCalculationGoesOn : Prop :=
  ∀ (s m u : State) (s₁ s₂ : List Byte) (between : List CmdWord) (saved : RspWord),
    Ready s → executeAll (updbWords s₁ ++ [encode .accrd]) s = .next m → m.rspq.getLast? = some saved →
    executeAll between m = .next u →
    ∃ t, executeAll (encode (.accwr (responseData saved)) :: updbWords s₂) u = .next t ∧
      t.acc = update s.acc (s₁ ++ s₂)

/-! ## The whole machine -/

/-- The invariant holds at reset, for any depths. -/
def Obligations.InvariantHoldsAtReset : Prop := ∀ p : Config.Params, Inv p State.reset

/-- Every step keeps the invariant, for any depths, any schedule and any host; so does a step of this core. -/
def Obligations.EveryStepKeepsTheInvariant : Prop :=
  (∀ (p : Config.Params) (s t : State), Inv p s → stepWith p s = .next t → Inv p t) ∧
  ∀ s t : State, Inv Config.params s → step s = .next t → Inv Config.params t

/-- R24, R157: no step of a state of the invariant stops: no command ever reads an unwritten TABLE entry. -/
def Obligations.NoStepOfTheInvariantStops : Prop :=
  ∀ (p : Config.Params) (s : State), Inv p s → ∃ t, stepWith p s = .next t

/-- The refinement holds at reset, for whatever schedule and host. -/
def Obligations.RefinementHoldsAtReset : Prop :=
  ∀ e : Env, e.sent = [] → e.taken = [] → Refines { State.reset with env := e }

/-- R50, R71: every step keeps the refinement: the commands removed from CMDQ were executed in the order they were sent,
each gave one response, in order, and the registers are what the sequential reference leaves. -/
def Obligations.EveryStepRefinesTheSequentialReference : Prop :=
  ∀ (p : Config.Params) (s t : State), Inv p s → Refines s → stepWith p s = .next t → Refines t

/-- R173 (which the spec derives from R51, R70 and R170): two complete runs of the same commands since reset, under any schedules, hosts and queue depths, observe the
same: the same responses but for the TG_COUNT and TABLE_READY of STATs that ran before the table was complete, the same
final registers, and the same TABLE once both have TG_I = 256. -/
def Obligations.ObservationsDoNotDependOnTheSchedule : Prop :=
  ∀ (p₁ p₂ : Config.Params) (s₁ s₂ : State) (P : List CmdWord),
    Reachable p₁ s₁ → Reachable p₂ s₂ → RunComplete P s₁ → RunComplete P s₂ →
    allAgree responsesAgree P (observe s₁).responses (observe s₂).responses ∧ (observe s₁).final = (observe s₂).final ∧
    (s₁.tgI = 256#9 → s₂.tgI = 256#9 → s₁.table = s₂.table)

/-- R133 (which the spec derives from R83 and R132): the TG_COUNTs that the STATs since reset returned never decrease and are at most TG_I, and a STAT executed now
returns TG_I, with TABLE_READY = (TG_I == 256). -/
def Obligations.StatCountsNeverDecrease : Prop :=
  (∀ (p : Config.Params) (s : State), Reachable p s →
    (statCounts s.env.sent (allResponses s)).Pairwise (· ≤ ·) ∧
    (∀ k ∈ statCounts s.env.sent (allResponses s), k ≤ s.tgI.toNat) ∧ s.tgI.toNat ≤ 256) ∧
  ∀ s t : State, exec .stat s = .next t → ∃ v, t.rspq = s.rspq ++ [responseWord false v] ∧
    statusTgCount v = s.tgI ∧ statusReady v = (s.tgI == 256#9)

/-- R71: every command ENGINE executes, legal or illegal, appends exactly one response, in the same step that removes it. -/
def Obligations.EachExecutedCommandGivesOneResponse : Prop :=
  ∀ (p : Config.Params) (s t : State) (w : CmdWord) (rest : List CmdWord),
    s.cmdq = w :: rest → engineStep p s = .next t → t.cmdq ≠ s.cmdq →
    t.cmdq = rest ∧ ∃ x, t.rspq = s.rspq ++ [x] ∧ (responseErr x = true ↔ ∃ c, decode w = .illegal c)

/-- R22: ACC is written by SEED, UPDB and ACCWR, and by reset, and by nothing else in any step. -/
def Obligations.AccIsWrittenOnlyByItsCommands : Prop :=
  ∀ (p : Config.Params) (s t : State), stepWith p s = .next t → t.acc ≠ s.acc →
    (nextAgent s = .host ∧ hostAction (useTurn s) = .reset ∧ t.acc = 0x00000000#32) ∨
    (nextAgent s = .engine ∧ ∃ w rest, s.cmdq = w :: rest ∧
      (decode w = .cmd .seed ∨ (∃ b, decode w = .cmd (.updb b)) ∨ ∃ v, decode w = .cmd (.accwr v)))

/-- R23: SEEDED is set by SEED and ACCWR and cleared by reset only; it is 1 exactly when one of the commands executed since
reset (those sent that are no longer in CMDQ) is a SEED or an ACCWR. -/
def Obligations.SeededIsSetByLoadingAndClearedByReset : Prop :=
  (∀ (p : Config.Params) (s : State), Reachable p s →
    (s.seeded = true ↔ ∃ w ∈ s.env.sent.take (s.env.sent.length - s.cmdq.length), loadsAcc w = true)) ∧
  ∀ (p : Config.Params) (s t : State), stepWith p s = .next t → t.seeded ≠ s.seeded →
    (nextAgent s = .host ∧ hostAction (useTurn s) = .reset ∧ t.seeded = false) ∨
    (nextAgent s = .engine ∧ t.seeded = true ∧ ∃ w rest, s.cmdq = w :: rest ∧ loadsAcc w = true)

/-- R24, R85: in any step a TABLE entry changes only by a TGEN step that writes its generated value, or by reset; a written
entry of a state of the invariant does not change until reset. -/
def Obligations.TableIsWrittenOnceByTgen : Prop :=
  ∀ (p : Config.Params) (s t : State) (i : Byte), stepWith p s = .next t → tableEntry t i ≠ tableEntry s i →
    (nextAgent s = .host ∧ hostAction (useTurn s) = .reset ∧ tableEntry t i = none) ∨
    (nextAgent s = .tgen ∧ i.toNat = s.tgI.toNat ∧ tableEntry t i = some (genEntry i) ∧
      (TableInv s → tableEntry s i = none))

/-- R27, R178: HOST appends a word exactly when CMDQ holds fewer than CMD_DEPTH and is otherwise held with that word; it
removes the oldest response exactly when RSPQ is not empty; neither changes any register. -/
def Obligations.HostSendsAndTakesInOrder : Prop :=
  ∀ (p : Config.Params) (s : State) (more : List Config.HostAction),
    (∀ w, s.env.script = .send w :: more →
      (s.cmdq.length < p.cmdDepth → hostStep p s =
        { s with cmdq := s.cmdq ++ [w], env := { s.env with script := more, sent := s.env.sent ++ [w] } }) ∧
      (p.cmdDepth ≤ s.cmdq.length → hostStep p s = s)) ∧
    (s.env.script = .take :: more →
      (∀ x rest, s.rspq = x :: rest → hostStep p s =
        { s with rspq := rest, env := { s.env with script := more, taken := s.env.taken ++ [x] } }) ∧
      (s.rspq = [] → hostStep p s = s))

/-- R157: with CMDQ and RSPQ full and a host that only sends, neither HOST's turn nor ENGINE's changes anything. -/
def Obligations.FullQueuesHoldHostAndEngine : Prop :=
  ∀ (p : Config.Params) (s : State) (w : CmdWord) (more : List Config.HostAction),
    s.cmdq.length = p.cmdDepth → s.rspq.length = p.rspDepth → s.env.script = .send w :: more →
    engineStep p s = .next s ∧ hostStep p s = s

/-! ## The assembler -/

/-- R72, R74: a statement assembles exactly when its operands are in range, and no statement but a word written out gives
an illegal word; a command's word is `{OP, ARG}`. -/
def Obligations.AssemblerMakesOnlyLegalWords : Prop :=
  (∀ t : Stmt, Asm.assemble t = none ↔ t.wf = false) ∧
  (∀ (t : Stmt) (ws : List CmdWord), (∀ n, t ≠ .word40 n) → Asm.assemble t = some ws →
    ∀ w ∈ ws, ∃ i : Instr, decode w = .cmd i) ∧
  Asm.assemble .nop = some [commandWord 0x00#8 0#32] ∧ Asm.assemble .seed = some [commandWord 0x01#8 0#32] ∧
  Asm.assemble .fin = some [commandWord 0x03#8 0#32] ∧ Asm.assemble .accrd = some [commandWord 0x04#8 0#32] ∧
  Asm.assemble .stat = some [commandWord 0x07#8 0#32] ∧ Asm.assemble .errclr = some [commandWord 0x08#8 0#32] ∧
  (∀ n : Nat, n < 4294967296 → Asm.assemble (.accwr n) = some [commandWord 0x05#8 (BitVec.ofNat 32 n)]) ∧
  ∀ n : Nat, n < 256 →
    Asm.assemble (.updb n) = some [commandWord 0x02#8 (BitVec.ofNat 32 n)] ∧
    Asm.assemble (.tblrd n) = some [commandWord 0x06#8 (BitVec.ofNat 32 n)]

/-- R75 to R79: what the pseudo-instructions expand to. -/
def Obligations.PseudoInstructionsExpand : Prop :=
  (∀ s : List Nat, Asm.expand (.update s) = s.flatMap (fun n => Asm.expand (.updb n))) ∧
  (∀ segments : List (List Nat), Asm.expand (.calculate segments) =
    Asm.expand .seed ++ segments.flatMap (fun s => Asm.expand (.update s)) ++ Asm.expand .fin) ∧
  Asm.expand .reset = Asm.expand .seed ∧ (∀ s : List Nat, Asm.expand (.add s) = Asm.expand (.update s)) ∧
  Asm.expand .value = Asm.expand .fin ∧ Asm.expand .save = Asm.expand .accrd ∧
  (∀ v : Nat, Asm.expand (.restore v) = Asm.expand (.accwr v)) ∧ Asm.expand .waittbl = Asm.expand (.tblrd 0)

/-! ## The record of R33 -/

/-- R33: the record of the core, its nine items within their bounds, is what reset leaves, and every step from it gives it
again, whatever the outside of the core. -/
def Obligations.EveryStepKeepsTheRecord : Prop :=
  (∀ p : Config.Params, ∃ r : CoreRecord p, r.val = State.reset.toCoreState) ∧
  ∀ (p : Config.Params) (r : CoreRecord p) (e : Env) (t : State), stepWith p { toCoreState := r.val, env := e } = .next t →
    ∃ r' : CoreRecord p, r'.val = t.toCoreState

/-- R33: the nine items are the complete state of the core. What a command, and what the turn of an agent, leaves of the
core (or the fault it stops with) does not depend on the model's `env`, but for which action HOST takes. -/
def Obligations.TheNineItemsAreTheCompleteState : Prop :=
  (∀ (c : CoreState) (e e' : Env) (i : Instr),
    ofCore (exec i { toCoreState := c, env := e }) = ofCore (exec i { toCoreState := c, env := e' })) ∧
  ∀ (p : Config.Params) (s s' : State), s.toCoreState = s'.toCoreState → nextAgent s = nextAgent s' →
    (nextAgent s = .host → hostAction (useTurn s) = hostAction (useTurn s')) →
    ofCore (stepWith p s) = ofCore (stepWith p s')
end

