-- ==== Sys2Proof/Laws/Memory.lean ====
section
/-! SUPPORT. TABLE: every operation keeps the canonical form, a read after a write gives the value written, and a write
leaves every other entry alone (10_state.md R24). -/

namespace Sys2Proof.Machine

theorem Memory.rising_mono {lo lo' : Nat} {m : Memory} (h : Memory.rising lo m = true) (hle : lo' ≤ lo) :
    Memory.rising lo' m = true := by
  cases m with
  | nil => rfl
  | cons e m =>
    obtain ⟨a, v⟩ := e
    simp only [Memory.rising, Bool.and_eq_true, decide_eq_true_eq] at h ⊢
    exact ⟨⟨by omega, h.1.2⟩, h.2⟩

/-- Writing keeps the canonical form. -/
theorem Memory.put_rising {lo i : Nat} {m : Memory} {v : Word} (h : Memory.rising lo m = true) (hlo : lo ≤ i)
    (hi : i < Config.tableDepth) : Memory.rising lo (m.put i v) = true := by
  induction m generalizing lo with
  | nil => simp [Memory.put, Memory.rising, hlo, hi]
  | cons e m ih =>
    obtain ⟨a, u⟩ := e
    simp only [Memory.rising, Bool.and_eq_true, decide_eq_true_eq] at h
    unfold Memory.put
    split
    · simp only [Memory.rising, Bool.and_eq_true, decide_eq_true_eq]
      exact ⟨⟨hlo, hi⟩, ⟨by omega, h.1.2⟩, h.2⟩
    · split
      · simp only [Memory.rising, Bool.and_eq_true, decide_eq_true_eq]
        exact ⟨⟨hlo, hi⟩, Memory.rising_mono h.2 (by omega)⟩
      · simp only [Memory.rising, Bool.and_eq_true, decide_eq_true_eq]
        exact ⟨h.1, ih h.2 (by omega)⟩

theorem Memory.put_wf {m : Memory} (h : m.wf = true) (i : Byte) (v : Word) : (m.put i.toNat v).wf = true :=
  Memory.put_rising h (Nat.zero_le _) i.isLt

/-- The memory after reset, with nothing listed, is canonical. -/
theorem Memory.wf_nil : Memory.wf [] = true := rfl

/-- An index below all those listed is unwritten. -/
theorem Memory.entry_below {lo i : Nat} {m : Memory} (h : Memory.rising lo m = true) (hi : i < lo) : m.entry i = none := by
  induction m generalizing lo with
  | nil => rfl
  | cons e m ih =>
    obtain ⟨a, u⟩ := e
    simp only [Memory.rising, Bool.and_eq_true, decide_eq_true_eq] at h
    rw [Memory.entry, if_neg (by omega)]
    exact ih h.2 (by omega)

/-- No index from 256 on is written. -/
theorem Memory.entry_beyond {lo i : Nat} {m : Memory} (h : Memory.rising lo m = true) (hi : Config.tableDepth ≤ i) :
    m.entry i = none := by
  induction m generalizing lo with
  | nil => rfl
  | cons e m ih =>
    obtain ⟨a, u⟩ := e
    simp only [Memory.rising, Bool.and_eq_true, decide_eq_true_eq] at h
    rw [Memory.entry, if_neg (by omega)]
    exact ih h.2

/-- A read after a write: the value written at that index, what was read before at every other. -/
theorem Memory.entry_put (m : Memory) (i j : Nat) (v : Word) :
    (m.put i v).entry j = if j = i then some v else m.entry j := by
  induction m with
  | nil => simp [Memory.put, Memory.entry]
  | cons e m ih =>
    obtain ⟨a, u⟩ := e
    unfold Memory.put
    split
    · simp [Memory.entry]
    · split
      · rename_i h; subst h
        by_cases hj : j = i <;> simp [Memory.entry, hj]
      · by_cases hj : j = a
        · subst hj
          simp only [Memory.entry, if_true]
          rw [if_neg (by omega)]
        · simp only [Memory.entry, hj, if_false, ih]

/-- Canonical memories are equal when they read the same at every index. -/
theorem Memory.ext_of_rising {lo : Nat} {m n : Memory} (hm : Memory.rising lo m = true) (hn : Memory.rising lo n = true)
    (h : ∀ i, m.entry i = n.entry i) : m = n := by
  induction m generalizing lo n with
  | nil =>
    cases n with
    | nil => rfl
    | cons e n => have := h e.1; simp [Memory.entry] at this
  | cons e m ih =>
    obtain ⟨a, u⟩ := e
    cases n with
    | nil => have := h a; simp [Memory.entry] at this
    | cons e' n =>
      obtain ⟨b, w⟩ := e'
      simp only [Memory.rising, Bool.and_eq_true, decide_eq_true_eq] at hm hn
      have hab : a = b := by
        rcases Nat.lt_trichotomy a b with hlt | heq | hgt
        · have := h a
          rw [Memory.entry, if_pos rfl, Memory.entry, if_neg (by omega), Memory.entry_below hn.2 (by omega)] at this
          cases this
        · exact heq
        · have := h b
          rw [Memory.entry, if_neg (by omega), Memory.entry_below hm.2 (by omega), Memory.entry, if_pos rfl] at this
          cases this
      subst hab
      have huw : u = w := by have := h a; simpa [Memory.entry] using this
      subst huw
      have : m = n := ih hm.2 hn.2 (fun i => by
        by_cases hi : i = a
        · subst hi
          rw [Memory.entry_below hm.2 (by omega), Memory.entry_below hn.2 (by omega)]
        · have := h i
          simpa [Memory.entry, hi] using this)
      rw [this]

/-- What a write of TABLE leaves in every entry. -/
theorem tableEntry_tableWrite (i j : Byte) (v : Word) (s : State) :
    tableEntry (tableWrite i v s) j = if j = i then some v else tableEntry s j := by
  simp only [tableEntry, tableWrite, Memory.entry_put, BitVec.toNat_inj]

theorem Memory.entry_map (f : Nat → Word) (l : List Nat) (i : Nat) :
    Memory.entry (l.map (fun k => (k, f k))) i = if i ∈ l then some (f i) else none := by
  induction l with
  | nil => rfl
  | cons a l ih =>
    simp only [List.map_cons, Memory.entry, ih, List.mem_cons]
    by_cases h : i = a
    · subst h; simp
    · simp [h]

/-- Every entry of the completed table is its generated value. -/
theorem completeTable_entry {i : Nat} (h : i < 256) : completeTable.entry i = some (genEntry (BitVec.ofNat 8 i)) := by
  unfold completeTable
  rw [Memory.entry_map (fun i => genEntry (BitVec.ofNat 8 i))]
  simp [Config.tableDepth, h]

theorem Memory.rising_range' (f : Nat → Word) (n lo : Nat) (h : lo + n ≤ Config.tableDepth) :
    Memory.rising lo ((List.range' lo n).map (fun k => (k, f k))) = true := by
  induction n generalizing lo with
  | zero => rfl
  | succ n ih =>
    simp only [List.range'_succ, List.map_cons, Memory.rising, Bool.and_eq_true, decide_eq_true_eq]
    exact ⟨⟨Nat.le_refl _, by omega⟩, ih (lo + 1) (by omega)⟩

theorem completeTable_wf : completeTable.wf = true := by
  unfold completeTable Memory.wf
  rw [List.range_eq_range']
  exact Memory.rising_range' (fun i => genEntry (BitVec.ofNat 8 i)) Config.tableDepth 0 (Nat.le_refl _)

end Sys2Proof.Machine
end

