-- ==== Sys2Proof/Laws/State.lean ====
section
/-! SUPPORT. What each update of the state does to each field, so that no proof unfolds a record update. -/

namespace Sys2Proof.Machine

@[simp] theorem setAcc_acc (v : Word) (s : State) : (setAcc v s).acc = v := rfl
@[simp] theorem setAcc_seeded (v : Word) (s : State) : (setAcc v s).seeded = s.seeded := rfl
@[simp] theorem setAcc_table (v : Word) (s : State) : (setAcc v s).table = s.table := rfl
@[simp] theorem setAcc_tgI (v : Word) (s : State) : (setAcc v s).tgI = s.tgI := rfl
@[simp] theorem setAcc_ill (v : Word) (s : State) : (setAcc v s).ill = s.ill := rfl
@[simp] theorem setAcc_ecause (v : Word) (s : State) : (setAcc v s).ecause = s.ecause := rfl
@[simp] theorem setAcc_eop (v : Word) (s : State) : (setAcc v s).eop = s.eop := rfl
@[simp] theorem setAcc_cmdq (v : Word) (s : State) : (setAcc v s).cmdq = s.cmdq := rfl
@[simp] theorem setAcc_rspq (v : Word) (s : State) : (setAcc v s).rspq = s.rspq := rfl
@[simp] theorem setAcc_env (v : Word) (s : State) : (setAcc v s).env = s.env := rfl

@[simp] theorem setSeeded_acc (s : State) : (setSeeded s).acc = s.acc := rfl
@[simp] theorem setSeeded_seeded (s : State) : (setSeeded s).seeded = true := rfl
@[simp] theorem setSeeded_table (s : State) : (setSeeded s).table = s.table := rfl
@[simp] theorem setSeeded_tgI (s : State) : (setSeeded s).tgI = s.tgI := rfl
@[simp] theorem setSeeded_ill (s : State) : (setSeeded s).ill = s.ill := rfl
@[simp] theorem setSeeded_ecause (s : State) : (setSeeded s).ecause = s.ecause := rfl
@[simp] theorem setSeeded_eop (s : State) : (setSeeded s).eop = s.eop := rfl
@[simp] theorem setSeeded_cmdq (s : State) : (setSeeded s).cmdq = s.cmdq := rfl
@[simp] theorem setSeeded_rspq (s : State) : (setSeeded s).rspq = s.rspq := rfl
@[simp] theorem setSeeded_env (s : State) : (setSeeded s).env = s.env := rfl

@[simp] theorem respond_acc (e : Bool) (d : Word) (s : State) : (respond e d s).acc = s.acc := rfl
@[simp] theorem respond_seeded (e : Bool) (d : Word) (s : State) : (respond e d s).seeded = s.seeded := rfl
@[simp] theorem respond_table (e : Bool) (d : Word) (s : State) : (respond e d s).table = s.table := rfl
@[simp] theorem respond_tgI (e : Bool) (d : Word) (s : State) : (respond e d s).tgI = s.tgI := rfl
@[simp] theorem respond_ill (e : Bool) (d : Word) (s : State) : (respond e d s).ill = s.ill := rfl
@[simp] theorem respond_ecause (e : Bool) (d : Word) (s : State) : (respond e d s).ecause = s.ecause := rfl
@[simp] theorem respond_eop (e : Bool) (d : Word) (s : State) : (respond e d s).eop = s.eop := rfl
@[simp] theorem respond_cmdq (e : Bool) (d : Word) (s : State) : (respond e d s).cmdq = s.cmdq := rfl
@[simp] theorem respond_rspq (e : Bool) (d : Word) (s : State) : (respond e d s).rspq = s.rspq ++ [responseWord e d] := rfl
@[simp] theorem respond_env (e : Bool) (d : Word) (s : State) : (respond e d s).env = s.env := rfl

@[simp] theorem clearErrors_acc (s : State) : (clearErrors s).acc = s.acc := rfl
@[simp] theorem clearErrors_seeded (s : State) : (clearErrors s).seeded = s.seeded := rfl
@[simp] theorem clearErrors_table (s : State) : (clearErrors s).table = s.table := rfl
@[simp] theorem clearErrors_tgI (s : State) : (clearErrors s).tgI = s.tgI := rfl
@[simp] theorem clearErrors_ill (s : State) : (clearErrors s).ill = false := rfl
@[simp] theorem clearErrors_ecause (s : State) : (clearErrors s).ecause = 0#2 := rfl
@[simp] theorem clearErrors_eop (s : State) : (clearErrors s).eop = 0#8 := rfl
@[simp] theorem clearErrors_cmdq (s : State) : (clearErrors s).cmdq = s.cmdq := rfl
@[simp] theorem clearErrors_rspq (s : State) : (clearErrors s).rspq = s.rspq := rfl
@[simp] theorem clearErrors_env (s : State) : (clearErrors s).env = s.env := rfl

@[simp] theorem tableWrite_acc (i : Byte) (v : Word) (s : State) : (tableWrite i v s).acc = s.acc := rfl
@[simp] theorem tableWrite_seeded (i : Byte) (v : Word) (s : State) : (tableWrite i v s).seeded = s.seeded := rfl
@[simp] theorem tableWrite_table (i : Byte) (v : Word) (s : State) : (tableWrite i v s).table = s.table.put i.toNat v := rfl
@[simp] theorem tableWrite_tgI (i : Byte) (v : Word) (s : State) : (tableWrite i v s).tgI = s.tgI := rfl
@[simp] theorem tableWrite_ill (i : Byte) (v : Word) (s : State) : (tableWrite i v s).ill = s.ill := rfl
@[simp] theorem tableWrite_ecause (i : Byte) (v : Word) (s : State) : (tableWrite i v s).ecause = s.ecause := rfl
@[simp] theorem tableWrite_eop (i : Byte) (v : Word) (s : State) : (tableWrite i v s).eop = s.eop := rfl
@[simp] theorem tableWrite_cmdq (i : Byte) (v : Word) (s : State) : (tableWrite i v s).cmdq = s.cmdq := rfl
@[simp] theorem tableWrite_rspq (i : Byte) (v : Word) (s : State) : (tableWrite i v s).rspq = s.rspq := rfl
@[simp] theorem tableWrite_env (i : Byte) (v : Word) (s : State) : (tableWrite i v s).env = s.env := rfl

@[simp] theorem sendCommand_acc (w : CmdWord) (s : State) : (sendCommand w s).acc = s.acc := rfl
@[simp] theorem sendCommand_seeded (w : CmdWord) (s : State) : (sendCommand w s).seeded = s.seeded := rfl
@[simp] theorem sendCommand_table (w : CmdWord) (s : State) : (sendCommand w s).table = s.table := rfl
@[simp] theorem sendCommand_tgI (w : CmdWord) (s : State) : (sendCommand w s).tgI = s.tgI := rfl
@[simp] theorem sendCommand_ill (w : CmdWord) (s : State) : (sendCommand w s).ill = s.ill := rfl
@[simp] theorem sendCommand_ecause (w : CmdWord) (s : State) : (sendCommand w s).ecause = s.ecause := rfl
@[simp] theorem sendCommand_eop (w : CmdWord) (s : State) : (sendCommand w s).eop = s.eop := rfl
@[simp] theorem sendCommand_cmdq (w : CmdWord) (s : State) : (sendCommand w s).cmdq = s.cmdq ++ [w] := rfl
@[simp] theorem sendCommand_rspq (w : CmdWord) (s : State) : (sendCommand w s).rspq = s.rspq := rfl

@[simp] theorem useTurn_acc (s : State) : (useTurn s).acc = s.acc := rfl
@[simp] theorem useTurn_seeded (s : State) : (useTurn s).seeded = s.seeded := rfl
@[simp] theorem useTurn_table (s : State) : (useTurn s).table = s.table := rfl
@[simp] theorem useTurn_tgI (s : State) : (useTurn s).tgI = s.tgI := rfl
@[simp] theorem useTurn_ill (s : State) : (useTurn s).ill = s.ill := rfl
@[simp] theorem useTurn_ecause (s : State) : (useTurn s).ecause = s.ecause := rfl
@[simp] theorem useTurn_eop (s : State) : (useTurn s).eop = s.eop := rfl
@[simp] theorem useTurn_cmdq (s : State) : (useTurn s).cmdq = s.cmdq := rfl
@[simp] theorem useTurn_rspq (s : State) : (useTurn s).rspq = s.rspq := rfl

@[simp] theorem dropAction_acc (s : State) : (dropAction s).acc = s.acc := rfl
@[simp] theorem dropAction_seeded (s : State) : (dropAction s).seeded = s.seeded := rfl
@[simp] theorem dropAction_table (s : State) : (dropAction s).table = s.table := rfl
@[simp] theorem dropAction_tgI (s : State) : (dropAction s).tgI = s.tgI := rfl
@[simp] theorem dropAction_ill (s : State) : (dropAction s).ill = s.ill := rfl
@[simp] theorem dropAction_ecause (s : State) : (dropAction s).ecause = s.ecause := rfl
@[simp] theorem dropAction_eop (s : State) : (dropAction s).eop = s.eop := rfl
@[simp] theorem dropAction_cmdq (s : State) : (dropAction s).cmdq = s.cmdq := rfl
@[simp] theorem dropAction_rspq (s : State) : (dropAction s).rspq = s.rspq := rfl

@[simp] theorem keepAction_acc (a : Config.HostAction) (s : State) : (keepAction a s).acc = s.acc := rfl
@[simp] theorem keepAction_seeded (a : Config.HostAction) (s : State) : (keepAction a s).seeded = s.seeded := rfl
@[simp] theorem keepAction_table (a : Config.HostAction) (s : State) : (keepAction a s).table = s.table := rfl
@[simp] theorem keepAction_tgI (a : Config.HostAction) (s : State) : (keepAction a s).tgI = s.tgI := rfl
@[simp] theorem keepAction_ill (a : Config.HostAction) (s : State) : (keepAction a s).ill = s.ill := rfl
@[simp] theorem keepAction_ecause (a : Config.HostAction) (s : State) : (keepAction a s).ecause = s.ecause := rfl
@[simp] theorem keepAction_eop (a : Config.HostAction) (s : State) : (keepAction a s).eop = s.eop := rfl
@[simp] theorem keepAction_cmdq (a : Config.HostAction) (s : State) : (keepAction a s).cmdq = s.cmdq := rfl
@[simp] theorem keepAction_rspq (a : Config.HostAction) (s : State) : (keepAction a s).rspq = s.rspq := rfl

@[simp] theorem tgenWrite_acc (s : State) : (tgenWrite s).acc = s.acc := rfl
@[simp] theorem tgenWrite_seeded (s : State) : (tgenWrite s).seeded = s.seeded := rfl
@[simp] theorem tgenWrite_table (s : State) : (tgenWrite s).table = s.table.put (tgenIndex s).toNat (genEntry (tgenIndex s)) := rfl
@[simp] theorem tgenWrite_tgI (s : State) : (tgenWrite s).tgI = s.tgI + 1#9 := rfl
@[simp] theorem tgenWrite_ill (s : State) : (tgenWrite s).ill = s.ill := rfl
@[simp] theorem tgenWrite_ecause (s : State) : (tgenWrite s).ecause = s.ecause := rfl
@[simp] theorem tgenWrite_eop (s : State) : (tgenWrite s).eop = s.eop := rfl
@[simp] theorem tgenWrite_cmdq (s : State) : (tgenWrite s).cmdq = s.cmdq := rfl
@[simp] theorem tgenWrite_rspq (s : State) : (tgenWrite s).rspq = s.rspq := rfl
@[simp] theorem tgenWrite_env (s : State) : (tgenWrite s).env = s.env := rfl

@[simp] theorem withTableComplete_acc (s : State) : (withTableComplete s).acc = s.acc := rfl
@[simp] theorem withTableComplete_seeded (s : State) : (withTableComplete s).seeded = s.seeded := rfl
@[simp] theorem withTableComplete_table (s : State) : (withTableComplete s).table = completeTable := rfl
@[simp] theorem withTableComplete_tgI (s : State) : (withTableComplete s).tgI = 256#9 := rfl
@[simp] theorem withTableComplete_ill (s : State) : (withTableComplete s).ill = s.ill := rfl
@[simp] theorem withTableComplete_ecause (s : State) : (withTableComplete s).ecause = s.ecause := rfl
@[simp] theorem withTableComplete_eop (s : State) : (withTableComplete s).eop = s.eop := rfl
@[simp] theorem withTableComplete_cmdq (s : State) : (withTableComplete s).cmdq = s.cmdq := rfl
@[simp] theorem withTableComplete_rspq (s : State) : (withTableComplete s).rspq = s.rspq := rfl
@[simp] theorem withTableComplete_env (s : State) : (withTableComplete s).env = s.env := rfl

@[simp] theorem sendCommand_env_turns (w : CmdWord) (s : State) : (sendCommand w s).env.turns = s.env.turns := rfl
@[simp] theorem sendCommand_env_script (w : CmdWord) (s : State) : (sendCommand w s).env.script = s.env.script := rfl
@[simp] theorem sendCommand_env_tick (w : CmdWord) (s : State) : (sendCommand w s).env.tick = s.env.tick := rfl
@[simp] theorem sendCommand_env_sent (w : CmdWord) (s : State) : (sendCommand w s).env.sent = s.env.sent ++ [w] := rfl
@[simp] theorem sendCommand_env_taken (w : CmdWord) (s : State) : (sendCommand w s).env.taken = s.env.taken := rfl

@[simp] theorem useTurn_env_turns (s : State) : (useTurn s).env.turns = s.env.turns.tail := rfl
@[simp] theorem useTurn_env_script (s : State) : (useTurn s).env.script = s.env.script := rfl
@[simp] theorem useTurn_env_tick (s : State) : (useTurn s).env.tick = s.env.tick + 1 := rfl
@[simp] theorem useTurn_env_sent (s : State) : (useTurn s).env.sent = s.env.sent := rfl
@[simp] theorem useTurn_env_taken (s : State) : (useTurn s).env.taken = s.env.taken := rfl

@[simp] theorem dropAction_env_turns (s : State) : (dropAction s).env.turns = s.env.turns := rfl
@[simp] theorem dropAction_env_script (s : State) : (dropAction s).env.script = s.env.script.tail := rfl
@[simp] theorem dropAction_env_tick (s : State) : (dropAction s).env.tick = s.env.tick := rfl
@[simp] theorem dropAction_env_sent (s : State) : (dropAction s).env.sent = s.env.sent := rfl
@[simp] theorem dropAction_env_taken (s : State) : (dropAction s).env.taken = s.env.taken := rfl

@[simp] theorem keepAction_env_turns (a : Config.HostAction) (s : State) : (keepAction a s).env.turns = s.env.turns := rfl
@[simp] theorem keepAction_env_script (a : Config.HostAction) (s : State) : (keepAction a s).env.script = a :: s.env.script.tail := rfl
@[simp] theorem keepAction_env_tick (a : Config.HostAction) (s : State) : (keepAction a s).env.tick = s.env.tick := rfl
@[simp] theorem keepAction_env_sent (a : Config.HostAction) (s : State) : (keepAction a s).env.sent = s.env.sent := rfl
@[simp] theorem keepAction_env_taken (a : Config.HostAction) (s : State) : (keepAction a s).env.taken = s.env.taken := rfl

@[simp] theorem assertReset_env_turns (s : State) : (assertReset s).env.turns = s.env.turns := rfl
@[simp] theorem assertReset_env_script (s : State) : (assertReset s).env.script = s.env.script := rfl
@[simp] theorem assertReset_env_tick (s : State) : (assertReset s).env.tick = s.env.tick := rfl
@[simp] theorem assertReset_env_sent (s : State) : (assertReset s).env.sent = [] := rfl
@[simp] theorem assertReset_env_taken (s : State) : (assertReset s).env.taken = [] := rfl

@[simp] theorem assertReset_acc (s : State) : (assertReset s).acc = 0#32 := rfl
@[simp] theorem assertReset_seeded (s : State) : (assertReset s).seeded = false := rfl
@[simp] theorem assertReset_table (s : State) : (assertReset s).table = [] := rfl
@[simp] theorem assertReset_tgI (s : State) : (assertReset s).tgI = 0#9 := rfl
@[simp] theorem assertReset_ill (s : State) : (assertReset s).ill = false := rfl
@[simp] theorem assertReset_ecause (s : State) : (assertReset s).ecause = 0#2 := rfl
@[simp] theorem assertReset_eop (s : State) : (assertReset s).eop = 0#8 := rfl
@[simp] theorem assertReset_cmdq (s : State) : (assertReset s).cmdq = [] := rfl
@[simp] theorem assertReset_rspq (s : State) : (assertReset s).rspq = [] := rfl

@[simp] theorem reset_acc : State.reset.acc = 0#32 := rfl
@[simp] theorem reset_seeded : State.reset.seeded = false := rfl
@[simp] theorem reset_table : State.reset.table = [] := rfl
@[simp] theorem reset_tgI : State.reset.tgI = 0#9 := rfl
@[simp] theorem reset_ill : State.reset.ill = false := rfl
@[simp] theorem reset_ecause : State.reset.ecause = 0#2 := rfl
@[simp] theorem reset_eop : State.reset.eop = 0#8 := rfl
@[simp] theorem reset_cmdq : State.reset.cmdq = [] := rfl
@[simp] theorem reset_rspq : State.reset.rspq = [] := rfl

end Sys2Proof.Machine
end

