-- ==== Sys2Proof/Laws/Words.lean ====
section
/-! SUPPORT. The fields of the words that cross the interface: what is put in a field is read from it (30_encoding.md R60,
R63), and a word is decoded as one of the cases of R69. -/

namespace Sys2Proof

theorem opField_commandWord (op : Byte) (arg : Word) : opField (commandWord op arg) = op := by
  apply BitVec.eq_of_getLsbD_eq
  intro k hk
  simp only [opField, commandWord, BitVec.getLsbD_extractLsb', BitVec.getLsbD_append]
  simp [hk]

theorem argField_commandWord (op : Byte) (arg : Word) : argField (commandWord op arg) = arg := by
  apply BitVec.eq_of_getLsbD_eq
  intro k hk
  simp only [argField, commandWord, BitVec.getLsbD_extractLsb', BitVec.getLsbD_append]
  simp [hk]

/-- A command is its OP and its ARG. -/
theorem commandWord_fields (w : CmdWord) : commandWord (opField w) (argField w) = w := by
  apply BitVec.eq_of_getLsbD_eq
  intro k hk
  simp only [opField, argField, commandWord, BitVec.getLsbD_extractLsb', BitVec.getLsbD_append]
  by_cases h : k < 32
  · simp [h]
  · have h8 : k - 32 < 8 := by omega
    have e : 32 + (k - 32) = k := by omega
    simp [h, h8, e]

theorem decode_commandWord (op : Byte) (arg : Word) : decode (commandWord op arg) = decodeFields op arg := by
  rw [decode, opField_commandWord, argField_commandWord]

/-- A word whose reserved bits are 0 is its byte operand, zero-extended. -/
theorem setWidth_byteField {arg : Word} (h : reservedOfB arg = 0#24) : (byteField arg).setWidth 32 = arg := by
  apply BitVec.eq_of_getLsbD_eq
  intro k hk
  simp only [byteField, BitVec.getLsbD_setWidth, BitVec.getLsbD_extractLsb']
  by_cases h8 : k < 8
  · simp [hk, h8]
  · have hz : (reservedOfB arg).getLsbD (k - 8) = false := by rw [h]; simp
    simp only [reservedOfB, BitVec.getLsbD_extractLsb'] at hz
    have e : 8 + (k - 8) = k := by omega
    have h24 : k - 8 < 24 := by omega
    rw [e] at hz
    simp only [h24, decide_true, Bool.true_and] at hz
    simp [h8, hz]

theorem byteField_setWidth (b : Byte) : byteField (b.setWidth 32) = b := by
  apply BitVec.eq_of_getLsbD_eq
  intro k hk
  simp only [byteField, BitVec.getLsbD_setWidth, BitVec.getLsbD_extractLsb']
  simp [hk]
  omega

theorem reservedOfB_setWidth (b : Byte) : reservedOfB (b.setWidth 32) = 0#24 := by
  apply BitVec.eq_of_getLsbD_eq
  intro k hk
  simp only [reservedOfB, BitVec.getLsbD_setWidth, BitVec.getLsbD_extractLsb']
  simp

namespace Machine

theorem responseErr_responseWord (e : Bool) (d : Word) : responseErr (responseWord e d) = e := by
  simp only [responseErr, responseWord, BitVec.getLsbD_append, BitVec.getLsbD_ofBool]
  simp

theorem responseData_responseWord (e : Bool) (d : Word) : responseData (responseWord e d) = d := by
  apply BitVec.eq_of_getLsbD_eq
  intro k hk
  simp only [responseData, responseWord, BitVec.getLsbD_extractLsb', BitVec.getLsbD_append]
  simp [hk]

/-- A response is its ERR and its DATA. -/
theorem responseWord_inj {e e' : Bool} {d d' : Word} (h : responseWord e d = responseWord e' d') : e = e' ∧ d = d' := by
  have h1 := congrArg responseErr h
  have h2 := congrArg responseData h
  rw [responseErr_responseWord, responseErr_responseWord] at h1
  rw [responseData_responseWord, responseData_responseWord] at h2
  exact ⟨h1, h2⟩

end Machine

end Sys2Proof
end

