-- ==== Sys2Proof/Laws/Exec.lean ====
section
/-! SUPPORT. One lemma per shared operation and per meaning that says all it can do; provers cite these instead of
unfolding. -/

namespace Sys2Proof.Machine

/-- A queue has room exactly when it holds fewer entries than its depth (10_state.md R27). -/
theorem hasRoom_iff {α : Type} (n : Nat) (q : List α) : hasRoom n q = true ↔ q.length < n + 1 := by
  cases q with
  | nil => simp [hasRoom]
  | cons x q => simp [hasRoom]

theorem hasRoom_nil {α : Type} (n : Nat) : hasRoom n ([] : List α) = true := rfl

/-- A table read inside a command answers next only through a written entry. -/
theorem withTableRead_next {i : Byte} {s t : State} {f : Word → Result} (h : withTableRead i s f = .next t) :
    ∃ v, tableEntry s i = some v ∧ f v = .next t := by
  unfold withTableRead at h
  split at h
  · exact ⟨_, ‹_›, h⟩
  · cases h

theorem withTableRead_some {i : Byte} {s : State} {v : Word} (f : Word → Result) (h : tableEntry s i = some v) :
    withTableRead i s f = f v := by
  unfold withTableRead; rw [h]

theorem withTableRead_none {i : Byte} {s : State} (f : Word → Result) (h : tableEntry s i = none) :
    withTableRead i s f = .fault (.unwrittenTableEntry i) := by
  unfold withTableRead; rw [h]

/-- All that taking the exception does (60_exceptions.md R143). -/
theorem raiseIllegal_eq (c : Cause) (op : Byte) (s : State) :
    raiseIllegal c op s =
      { s with
        ill := true
        ecause := if s.ill then s.ecause else causeCode c
        eop := if s.ill then s.eop else op
        rspq := s.rspq ++ [responseWord true 0#32] } := by
  unfold raiseIllegal captureError respond
  cases h : s.ill
  · simp
  · simp [h]

/-- What a command's meaning leaves: the response appended, and the registers it writes. -/
structure ExecEffect (s t : State) : Prop where
  table : t.table = s.table
  tgI : t.tgI = s.tgI
  cmdq : t.cmdq = s.cmdq
  env : t.env = s.env
  response : ∃ r, t.rspq = s.rspq ++ [r]

/-- Every meaning that answers next appends one response and leaves TABLE, TG_I, CMDQ and the outside. -/
theorem exec_effect {i : Instr} {s t : State} (h : exec i s = .next t) : ExecEffect s t := by
  cases i <;> simp only [exec, execNop, execSeed, execUpdb, execFin, execAccrd, execAccwr, execTblrd, execStat,
    execErrclr] at h
  case updb b =>
    obtain ⟨v, -, h⟩ := withTableRead_next h
    cases h
    exact ⟨rfl, rfl, rfl, rfl, _, rfl⟩
  case tblrd i =>
    obtain ⟨v, -, h⟩ := withTableRead_next h
    cases h
    exact ⟨rfl, rfl, rfl, rfl, _, rfl⟩
  all_goals
    cases h
    exact ⟨rfl, rfl, rfl, rfl, _, rfl⟩

/-- No meaning is refused. -/
theorem exec_not_refused (i : Instr) (s : State) (r : Refusal) : exec i s ≠ .refused r := by
  intro h
  cases i <;> simp only [exec, execNop, execSeed, execUpdb, execFin, execAccrd, execAccwr, execTblrd, execStat,
    execErrclr, withTableRead] at h
  case updb b => split at h <;> cases h
  case tblrd i => split at h <;> cases h
  all_goals cases h

/-- The command that is executed completes when every entry of TABLE is written. -/
theorem exec_completes {i : Instr} {s : State} (h : ∀ k : Byte, ∃ v, tableEntry s k = some v) :
    ∃ t, exec i s = .next t := by
  cases i
  case updb b =>
    obtain ⟨v, hv⟩ := h (updateIndex s.acc b)
    exact ⟨_, withTableRead_some _ hv⟩
  case tblrd k =>
    obtain ⟨v, hv⟩ := h k
    exact ⟨_, withTableRead_some _ hv⟩
  all_goals exact ⟨_, rfl⟩

end Sys2Proof.Machine
end

