-- ==== Sys2Proof/Laws/PerInstr.lean ====
section
/-! SUPPORT. The per-instruction family MatchesItsRow: a command's word is in the row of the opcode table that has its OP,
and its OP is read back from it (30_encoding.md R64, R74). -/

namespace Sys2Proof.Laws.MatchesItsRow

/-- The word of the command is in the one row whose OP is the command's. -/
def Statement (i : Instr) : Prop :=
  opField (encode i) = i.opcode ∧ ∃ r ∈ opcodeRows, r.op = i.opcode ∧ r.holds (encode i) = true

/-- A format B word is in its row: the mask clears the operand only. -/
theorem byte_row (op : Byte) (b : Byte) :
    (commandWord op (b.setWidth 32) &&& 0xFFFFFFFF00#40) = commandWord op 0#32 := by
  apply BitVec.eq_of_getLsbD_eq
  intro k hk
  simp only [commandWord, BitVec.getLsbD_and, BitVec.getLsbD_append, BitVec.getLsbD_setWidth]
  have hm : (0xFFFFFFFF00#40).getLsbD k = decide (8 ≤ k) := by
    have : ∀ j : Fin 40, (0xFFFFFFFF00#40).getLsbD j.val = decide (8 ≤ j.val) := by decide
    exact this ⟨k, hk⟩
  rw [hm]
  by_cases h : k < 32
  · by_cases h8 : 8 ≤ k
    · have hb : b.getLsbD k = false := BitVec.getLsbD_of_ge b k h8
      simp [h, hb]
    · simp [h, h8]
  · have : 8 ≤ k := by omega
    simp [h, this]

/-- A format W word is in its row: the mask clears ARG only. -/
theorem word_row (op : Byte) (v : Word) : (commandWord op v &&& 0xFF00000000#40) = commandWord op 0#32 := by
  apply BitVec.eq_of_getLsbD_eq
  intro k hk
  simp only [commandWord, BitVec.getLsbD_and, BitVec.getLsbD_append]
  have hm : (0xFF00000000#40).getLsbD k = decide (32 ≤ k) := by
    have : ∀ j : Fin 40, (0xFF00000000#40).getLsbD j.val = decide (32 ≤ j.val) := by decide
    exact this ⟨k, hk⟩
  rw [hm]
  by_cases h : k < 32
  · have : ¬ 32 ≤ k := by omega
    simp [h, this]
  · have : 32 ≤ k := by omega
    simp [h, this]

theorem nop : Statement .nop := ⟨opField_commandWord _ _, opcodeRows[0], by decide, rfl, by decide⟩

theorem seed : Statement .seed := ⟨opField_commandWord _ _, opcodeRows[1], by decide, rfl, by decide⟩

theorem updb (b : Byte) : Statement (.updb b) :=
  ⟨opField_commandWord _ _, opcodeRows[2], by decide, rfl, beq_iff_eq.mpr (byte_row 0x02#8 b)⟩

theorem fin : Statement .fin := ⟨opField_commandWord _ _, opcodeRows[3], by decide, rfl, by decide⟩

theorem accrd : Statement .accrd := ⟨opField_commandWord _ _, opcodeRows[4], by decide, rfl, by decide⟩

theorem accwr (v : Word) : Statement (.accwr v) :=
  ⟨opField_commandWord _ _, opcodeRows[5], by decide, rfl, beq_iff_eq.mpr (word_row 0x05#8 v)⟩

theorem tblrd (idx : Byte) : Statement (.tblrd idx) :=
  ⟨opField_commandWord _ _, opcodeRows[6], by decide, rfl, beq_iff_eq.mpr (byte_row 0x06#8 idx)⟩

theorem stat : Statement .stat := ⟨opField_commandWord _ _, opcodeRows[7], by decide, rfl, by decide⟩

theorem errclr : Statement .errclr := ⟨opField_commandWord _ _, opcodeRows[8], by decide, rfl, by decide⟩

end Sys2Proof.Laws.MatchesItsRow
end

