-- ==== Sys2Proof/Laws/Status.lean ====
section
/-! SUPPORT. The STATUS word bit by bit, and what its fields are (10_state.md R28). -/

namespace Sys2Proof.Machine

/-- The bits of a STATUS value (10_state.md R28). -/
theorem statusFrom_bit (tg : BitVec 9) (eop : Byte) (ec : BitVec 2) (ill sd rdy : Bool) (k : Nat) (hk : k < 32) :
    (statusFrom tg eop ec ill sd rdy).getLsbD k =
      if k = 0 then rdy else if k = 1 then sd else if k = 2 then ill else if k = 3 then false
      else if k < 6 then ec.getLsbD (k - 4) else if k < 8 then false
      else if k < 16 then eop.getLsbD (k - 8) else if k < 25 then tg.getLsbD (k - 16) else false := by
  simp only [statusFrom, BitVec.getLsbD_setWidth, BitVec.getLsbD_append, BitVec.getLsbD_ofBool, hk, decide_true,
    Bool.true_and]
  interval_cases k
  all_goals simp only [Nat.reduceLT, Nat.reduceSub, Nat.reduceEqDiff, if_true, if_false, decide_true, decide_false,
    Bool.true_and, Bool.false_and, BitVec.getLsbD_zero]
  all_goals first
    | rfl
    | (exact BitVec.getLsbD_of_ge _ _ (by decide))

/-- TG_COUNT of a STATUS value. -/
theorem statusTgCount_statusFrom (tg : BitVec 9) (eop : Byte) (ec : BitVec 2) (ill sd rdy : Bool) :
    statusTgCount (statusFrom tg eop ec ill sd rdy) = tg := by
  apply BitVec.eq_of_getLsbD_eq
  intro k hk
  rw [statusTgCount, BitVec.getLsbD_extractLsb', statusFrom_bit _ _ _ _ _ _ _ (by omega)]
  interval_cases k <;> simp only [Nat.reduceLT, Nat.reduceSub, Nat.reduceEqDiff, if_true, if_false, decide_true,
    Bool.true_and, Nat.reduceAdd]

/-- TABLE_READY of a STATUS value. -/
theorem statusReady_statusFrom (tg : BitVec 9) (eop : Byte) (ec : BitVec 2) (ill sd rdy : Bool) :
    statusReady (statusFrom tg eop ec ill sd rdy) = rdy := by
  rw [statusReady, statusFrom_bit _ _ _ _ _ _ _ (by omega), if_pos rfl]

/-- Without its progress fields a STATUS value does not depend on them. -/
theorem withoutProgress_statusFrom (tg tg' : BitVec 9) (eop : Byte) (ec : BitVec 2) (ill sd rdy rdy' : Bool) :
    withoutProgress (statusFrom tg eop ec ill sd rdy) = withoutProgress (statusFrom tg' eop ec ill sd rdy') := by
  apply BitVec.eq_of_getLsbD_eq
  intro k hk
  rw [withoutProgress, withoutProgress, BitVec.getLsbD_and, BitVec.getLsbD_and, statusFrom_bit _ _ _ _ _ _ _ hk,
    statusFrom_bit _ _ _ _ _ _ _ hk]
  by_cases h0 : k = 0
  · subst h0; simp
  by_cases h1 : 16 ≤ k ∧ k < 25
  · obtain ⟨h1, h2⟩ := h1
    have : (0xFE00FFFE#32).getLsbD k = false := by interval_cases k <;> decide
    rw [this, Bool.and_false, Bool.and_false]
  · simp only [h0, if_false]
    split_ifs <;> first | rfl | omega

end Sys2Proof.Machine
end

