-- ==== Sys2Proof/Laws/Step.lean ====
section
/-! SUPPORT. What a turn of each agent can do, said once: later proofs cite these instead of unfolding the step. -/

namespace Sys2Proof.Machine

/-- The bounds of R33's record, one by one. -/
theorem inBounds_iff {p : Config.Params} {c : CoreState} :
    c.inBounds p = true ↔
      Memory.wf c.table = true ∧ c.tgI.toNat ≤ 256 ∧ c.cmdq.length ≤ p.cmdDepth ∧ c.rspq.length ≤ p.rspDepth := by
  simp only [CoreState.inBounds, Bool.and_eq_true, decide_eq_true_eq, and_assoc]

/-- The core of a state of the invariant is within the bounds of R33's record. -/
theorem inBounds_of_inv {p : Config.Params} {s : State} (h : Inv p s) : s.toCoreState.inBounds p = true :=
  inBounds_iff.2 ⟨h.table.canonical, h.table.count, h.commands, h.responses⟩

@[simp] theorem ofCore_next (s : State) : ofCore (.next s) = .next s.toCoreState := rfl
@[simp] theorem ofCore_fault (f : Fault) : ofCore (.fault f) = .fault f := rfl
@[simp] theorem ofCore_refused (r : Refusal) : ofCore (.refused r) = .refused r := rfl
@[simp] theorem useTurn_toCoreState (s : State) : (useTurn s).toCoreState = s.toCoreState := rfl
@[simp] theorem dropAction_toCoreState (s : State) : (dropAction s).toCoreState = s.toCoreState := rfl
@[simp] theorem keepAction_toCoreState (a : Config.HostAction) (s : State) :
    (keepAction a s).toCoreState = s.toCoreState := rfl

/-- ENGINE's turn: it has no step and the state stays, or it removes the oldest command and executes it
(30_encoding.md R70). -/
theorem engineStep_cases {p : Config.Params} {s : State} {r : Result} (h : engineStep p s = r) :
    (r = .next s ∧ (s.cmdq = [] ∨ hasRoom p.rspBeyondOne s.rspq = false ∨
      ∃ w rest, s.cmdq = w :: rest ∧ heldByTable w s = true)) ∨
    (∃ w rest, s.cmdq = w :: rest ∧ hasRoom p.rspBeyondOne s.rspq = true ∧ heldByTable w s = false ∧
      r = executeWord w { s with cmdq := rest }) := by
  unfold engineStep at h
  split at h
  · exact .inl ⟨h.symm, .inl ‹_›⟩
  · rename_i w rest hq
    split at h
    · rename_i hc
      simp only [Bool.or_eq_true, Bool.not_eq_true'] at hc
      exact .inl ⟨h.symm, .inr (hc.imp id (fun hh => ⟨w, rest, hq, hh⟩))⟩
    · rename_i hc
      simp only [Bool.or_eq_true, Bool.not_eq_true', not_or] at hc
      exact .inr ⟨w, rest, hq, by simpa using hc.1, by simpa using hc.2, h.symm⟩

/-- A command executed: an illegal one takes the exception, a legal one has its meaning (30_encoding.md R70). -/
theorem executeWord_cases {w : CmdWord} {s : State} {r : Result} (h : executeWord w s = r) :
    (∃ c, decode w = .illegal c ∧ r = .next (raiseIllegal c (opField w) s)) ∨
    (∃ i, decode w = .cmd i ∧ r = exec i s) := by
  unfold executeWord at h
  split at h
  · exact .inl ⟨_, ‹_›, h.symm⟩
  · exact .inr ⟨_, ‹_›, h.symm⟩

/-- A command that the table hold lets through reads TABLE only when TG_I = 256 (70_reset_and_hazards.md R170). -/
theorem not_held_ready {w : CmdWord} {s : State} (h : heldByTable w s = false) :
    needsTable (decode w) = false ∨ s.tgI = 256#9 := by
  unfold heldByTable tableReady at h
  cases hn : needsTable (decode w)
  · exact .inl rfl
  · rw [hn] at h
    exact .inr (by simpa using h)

/-- TGEN's turn: it writes the next entry, or has no step (40_table_generator.md R83). -/
theorem tgenStep_cases (s : State) :
    (s.tgI.toNat < 256 ∧ tgenStep s = tgenWrite s) ∨ (256 ≤ s.tgI.toNat ∧ tgenStep s = s) := by
  unfold tgenStep tgenEnabled
  by_cases h : s.tgI < 256#9
  · left
    refine ⟨by simpa [BitVec.lt_def] using h, by simp [h]⟩
  · right
    refine ⟨by simpa [BitVec.lt_def] using h, by simp [h]⟩

/-- HOST's turn: it is held and waits, or it takes its action (70_reset_and_hazards.md R178). -/
theorem hostStep_cases (p : Config.Params) (s : State) :
    (hostEnabled p (hostAction s) s = false ∧ hostStep p s = keepAction (hostAction s) s) ∨
    (∃ w, hostAction s = .send w ∧ hasRoom p.cmdBeyondOne s.cmdq = true ∧
      hostStep p s = sendCommand w (dropAction s)) ∨
    (∃ x rest, hostAction s = .take ∧ s.rspq = x :: rest ∧
      hostStep p s = { dropAction s with
        rspq := rest
        env := { (dropAction s).env with taken := s.env.taken ++ [x] } }) ∨
    (hostAction s = .reset ∧ hostStep p s = assertReset (dropAction s)) := by
  unfold hostStep
  generalize hostAction s = a
  cases h : hostEnabled p a s
  · exact .inl ⟨rfl, by simp [h]⟩
  · right
    cases a with
    | send w => exact .inl ⟨w, rfl, h, by simp [h, hostEffect]⟩
    | take =>
      right; left
      cases hq : s.rspq with
      | nil => simp [hostEnabled, hq] at h
      | cons x rest => exact ⟨x, rest, rfl, rfl, by simp [h, hostEffect, takeResponse, hq]⟩
    | reset => exact .inr (.inr ⟨rfl, by simp [h, hostEffect]⟩)

/-- The state with all TGEN steps taken is ready (70_reset_and_hazards.md R179). -/
theorem ready_withTableComplete (s : State) : Ready (withTableComplete s) := by
  refine ⟨rfl, fun i => ?_⟩
  have h := completeTable_entry (i := i.toNat) i.isLt
  simpa [tableEntry] using h

/-- In the state with all TGEN steps taken TABLE follows TG_I. -/
theorem tableInv_withTableComplete (s : State) : TableInv (withTableComplete s) := by
  refine ⟨by simp, completeTable_wf, fun i hi => ?_⟩
  have h256 : (256#9).toNat = 256 := rfl
  rw [withTableComplete_table, withTableComplete_tgI, h256, if_pos hi]
  exact completeTable_entry hi

/-- A step is the turn of the agent whose turn it is (00_scope.md R11). -/
theorem stepWith_cases {p : Config.Params} {s : State} {r : Result} (h : stepWith p s = r) :
    (nextAgent s = .host ∧ r = .next (hostStep p (useTurn s))) ∨
    (nextAgent s = .engine ∧ r = engineStep p (useTurn s)) ∨
    (nextAgent s = .tgen ∧ r = .next (tgenStep (useTurn s))) := by
  unfold stepWith agentStep at h
  split at h
  · exact .inl ⟨‹_›, h.symm⟩
  · exact .inr (.inl ⟨‹_›, h.symm⟩)
  · exact .inr (.inr ⟨‹_›, h.symm⟩)

theorem andThen_next {r : Result} {f : State → Result} {t : State} (h : andThen r f = .next t) :
    ∃ m, r = .next m ∧ f m = .next t := by
  cases r with
  | next m => exact ⟨m, rfl, h⟩
  | fault e => cases h
  | refused e => cases h

/-- Placing a word where ENGINE takes its next one makes the very next step execute it. -/
theorem stepWith_placeCommand (p : Config.Params) (w : CmdWord) (s : State) :
    stepWith p (placeCommand p w s) =
      executeWord w
        { (if heldByTable w s then withTableComplete s else s) with
          cmdq := s.cmdq.tail
          rspq := roomInResponses p s.rspq
          env := { s.env with tick := s.env.tick + 1 } } := by
  have hroom : hasRoom p.rspBeyondOne (roomInResponses p s.rspq) = true := by
    unfold roomInResponses
    split
    · assumption
    · rw [hasRoom_iff, List.length_drop]; omega
  have hheld : ∀ q r e, heldByTable w
      { (if heldByTable w s then withTableComplete s else s) with cmdq := q, rspq := r, env := e } = false := by
    intro q r e
    unfold heldByTable tableReady
    by_cases h : (needsTable (decode w) && !(s.tgI == 256#9)) = true
    · rw [if_pos h]; simp
    · rw [if_neg h]; simpa using h
  simp only [stepWith, placeCommand, nextAgent, agentStep, engineStep, useTurn, List.tail_cons, hroom, hheld,
    Bool.not_true, Bool.or_self, Bool.false_eq_true, if_false]

end Sys2Proof.Machine
end

