-- ==== Sys2Proof/Tests/Slice0.lean ====
section
/-! SUPPORT. Tests: expected results are the vectors of 95_test_vectors.md (V<n>) and the rules' own examples, never the
model's answers. Then, for every statement with hypotheses, a witness that meets them. -/

namespace Sys2Proof.Tests

open Sys2Proof.Machine

/-! ## Helpers -/

/-- One queue entry each: CMD_DEPTH = RSP_DEPTH = 1. -/
def depthOne : Config.Params := { cmdBeyondOne := 0, rspBeyondOne := 0 }

/-- The reset state, the next turns and HOST's next actions given. -/
def start (turns : List Config.Agent) (script : List Config.HostAction) : State :=
  { State.reset with env := { turns := turns, script := script, tick := 0, sent := [], taken := [] } }

/-- The reset state with one command waiting. -/
def waiting (w : CmdWord) (turns : List Config.Agent) : State := { start turns [] with cmdq := [w] }

/-- The ready core of R179. -/
def ready : State := withTableComplete (start [] [])

/-- The ready core with ACC given. -/
def readyAcc (a : Word) : State := { ready with acc := a }

/-- A core whose first illegal command was captured. -/
def captured : State := { ready with ill := true, ecause := 1#2, eop := 0x09#8, seeded := true }

/-- What a test looks at in an outcome; none where it is no next state. -/
def look {α : Type} (r : Result) (f : State → α) : Option α :=
  match r with
  | .next t => some (f t)
  | .fault _ => none
  | .refused _ => none

/-- The last response, none where there is none. -/
def lastResponse (s : State) : Option RspWord := s.rspq.getLast?

/-! ## Well-formedness: an ill-formed term for each check, refused (R72) -/

theorem test_wf_refuses_byte_256 : Stmt.wf (.updb 256) = false ∧ Stmt.wf (.tblrd 256) = false := by decide

theorem test_wf_accepts_byte_255 : Stmt.wf (.updb 255) = true ∧ Stmt.wf (.tblrd 255) = true := by decide

theorem test_wf_refuses_word_of_33_bits : Stmt.wf (.accwr 0x100000000) = false ∧ Stmt.wf (.restore 0x100000000) = false := by
  decide

theorem test_wf_refuses_command_of_41_bits : Stmt.wf (.word40 0x10000000000) = false := by decide

theorem test_wf_refuses_segment_byte :
    Stmt.wf (.update [0x31, 256]) = false ∧ Stmt.wf (.add [256]) = false ∧ Stmt.wf (.calculate [[0x31], [256]]) = false := by
  decide

/-! ## Decoding: words written out from R60, R61 and R64; V24 -/

theorem test_decode_nop : decode 0b0000000000000000000000000000000000000000#40 = .cmd .nop := by decide
theorem test_decode_seed : decode 0b0000000100000000000000000000000000000000#40 = .cmd .seed := by decide
theorem test_decode_updb : decode 0b0000001000000000000000000000000000110001#40 = .cmd (.updb 0x31#8) := by decide
theorem test_decode_fin : decode 0b0000001100000000000000000000000000000000#40 = .cmd .fin := by decide
theorem test_decode_accrd : decode 0b0000010000000000000000000000000000000000#40 = .cmd .accrd := by decide
theorem test_decode_accwr : decode 0b0000010100010010001101000101011001111000#40 = .cmd (.accwr 0x12345678#32) := by decide
theorem test_decode_tblrd : decode 0b0000011000000000000000000000000011001110#40 = .cmd (.tblrd 0xCE#8) := by decide
theorem test_decode_stat : decode 0b0000011100000000000000000000000000000000#40 = .cmd .stat := by decide
theorem test_decode_errclr : decode 0b0000100000000000000000000000000000000000#40 = .cmd .errclr := by decide

theorem test_decode_reserved_opcodes :
    decode 0x0912345678#40 = .illegal .reservedOpcode ∧ decode 0x8000000000#40 = .illegal .reservedOpcode ∧
    decode 0xFFFFFFFFFF#40 = .illegal .reservedOpcode := by decide

theorem test_decode_reserved_arg_bits :
    decode 0x0000000001#40 = .illegal .reservedArgBits ∧ decode 0x0180000000#40 = .illegal .reservedArgBits ∧
    decode 0x0200000100#40 = .illegal .reservedArgBits ∧ decode 0x0300010000#40 = .illegal .reservedArgBits ∧
    decode 0x0400000002#40 = .illegal .reservedArgBits ∧ decode 0x0601000000#40 = .illegal .reservedArgBits ∧
    decode 0x0700000080#40 = .illegal .reservedArgBits ∧ decode 0x0800000001#40 = .illegal .reservedArgBits := by decide

theorem test_encode_updb_accwr :
    encode (.updb 0x31#8) = 0x0200000031#40 ∧ encode (.accwr 0x340AC5E3#32) = 0x05340AC5E3#40 := by decide

theorem test_decode_table_word :
    decodeTableWord 40 0x0512345678 = some (.accwr 0x12345678#32) ∧ decodeTableWord 40 0x0900000000 = none ∧
    decodeTableWord 8 0xFF00000000 = some .nop := by decide

/-! ## The commands, one step each -/

theorem test_nop_responds : look (exec .nop State.reset) (fun t => (t.acc, t.rspq)) = some (0x00000000#32, [0x000000000#33]) := by
  decide

/-- V14. -/
theorem test_seed_from_reset : look (exec .seed State.reset) (fun t => (t.acc, t.seeded)) = some (0xFFFFFFFF#32, true) := by
  decide

/-- V15: byte '1' from the seed. -/
theorem test_updb_one_from_seed : look (exec (.updb 0x31#8) (readyAcc 0xFFFFFFFF#32)) (fun t => t.acc) = some 0x7C231048#32 := by
  decide

/-- V15, R107: byte 0x9A after ACCWR 0x12345678. -/
theorem test_updb_after_accwr : look (exec (.updb 0x9A#8) (readyAcc 0x12345678#32)) (fun t => t.acc) = some 0x4E16B702#32 := by
  decide

/-- V16: the check value. -/
theorem test_fin_check_value :
    look (exec .fin (readyAcc 0x340BC6D9#32)) lastResponse = some (some 0x0CBF43926#33) := by decide

/-- V16: the XOR is with the constant after ACCWR (C4). -/
theorem test_fin_after_accwr :
    look (exec .fin (readyAcc 0x12345678#32)) lastResponse = some (some 0x0EDCBA987#33) := by decide

/-- V17. -/
theorem test_accrd_reads_acc : look (exec .accrd (readyAcc 0x340AC5E3#32)) lastResponse = some (some 0x0340AC5E3#33) := by
  decide

/-- V17. -/
theorem test_accwr_zero_is_seeded : look (exec (.accwr 0#32) State.reset) (fun t => (t.acc, t.seeded)) = some (0#32, true) := by
  decide

/-- V13. -/
theorem test_tblrd_poly : look (exec (.tblrd 0x80#8) ready) lastResponse = some (some 0x0EDB88320#33) := by decide

theorem test_tblrd_7f : look (exec (.tblrd 0x7F#8) ready) lastResponse = some (some 0x0C0BA6CAD#33) := by decide

/-- V18: ready, seeded, after the illegal word 0900000000. -/
theorem test_stat_captured : look (exec .stat captured) lastResponse = some (some 0x001000917#33) := by decide

/-- V18: reset, SEED, 128 TGEN steps. -/
theorem test_stat_in_progress :
    look (exec .stat { State.reset with seeded := true, tgI := 128#9 }) lastResponse = some (some 0x000800002#33) := by decide

/-- V19. -/
theorem test_errclr_clears : look (exec .errclr captured) (fun t => (t.ill, t.ecause, t.eop, t.seeded)) =
    some (false, 0#2, 0#8, true) := by decide

/-- V24: the capture of FF12345678. -/
theorem test_illegal_capture :
    look (executeWord 0xFF12345678#40 ready) (fun t => (t.ill, t.ecause, t.eop, lastResponse t)) =
      some (true, 1#2, 0xFF#8, some 0x100000000#33) := by decide

/-- V19: an illegal ERRCLR does not clear, and the first capture is kept. -/
theorem test_illegal_errclr_keeps :
    look (executeWord 0x0880000000#40 captured) (fun t => (t.ill, t.ecause, t.eop)) = some (true, 1#2, 0x09#8) := by decide

/-! ## The table: V12 -/

theorem test_bitstep_trace : bitstep 0x00000001#32 = 0xEDB88320#32 ∧ bitstep 0xEDB88320#32 = 0x76DC4190#32 := by decide

theorem test_gen_entry : genEntry 0xCE#8 = 0x7CDCEFB7#32 ∧ genEntry 0xFF#8 = 0x2D02EF8D#32 ∧ genEntry 0x69#8 = 0x346ED9FC#32 := by
  decide

theorem test_tgen_first_step : (tgenStep State.reset).table = [(0, 0x00000000#32)] ∧ (tgenStep State.reset).tgI = 1#9 := by
  decide

theorem test_memory_put_keeps_order :
    Memory.wf (Memory.put [(3, 0x1#32)] 2 0x2#32) = true ∧ Memory.put [(3, 0x1#32)] 2 0x2#32 = [(2, 0x2#32), (3, 0x1#32)] := by
  decide

theorem test_memory_wf_refuses : Memory.wf [(3, 0x1#32), (2, 0x2#32)] = false ∧ Memory.wf [(256, 0x1#32)] = false := by decide

/-! ## The step -/

/-- V13: TBLRD is held at reset; the illegal 0600000100 is not (R146). -/
theorem test_hold_at_reset :
    heldByTable 0x0600000001#40 State.reset = true ∧ heldByTable 0x0600000100#40 State.reset = false := by decide

/-- R70: with the hold lifted the step answers TBLRD 0x01. -/
theorem test_fetch_word_tblrd :
    look (step (State.reset.withFetchWord 40 0x0600000001)) lastResponse = some (some 0x077073096#33) := by decide

/-- P5: UPDB '1' from the un-seeded value, the first command after reset. -/
theorem test_fetch_word_updb :
    look (step (State.reset.withFetchWord 40 0x0200000031)) (fun t => t.acc) = some 0x51DE003A#32 := by decide

/-- V24: a reserved opcode, the first command after reset. -/
theorem test_fetch_word_illegal :
    look (step (State.reset.withFetchWord 40 0x0900000000)) (fun t => (t.ill, t.cmdq, lastResponse t)) =
      some (true, [], some 0x100000000#33) := by decide

/-- R178: a word is sent, and CMD_DEPTH = 1 holds HOST with the next. -/
theorem test_host_send_then_held :
    look (runWith depthOne 2 (start [.host, .host] [.send 0x0100000000#40, .send 0x0300000000#40]))
      (fun t => (t.cmdq, t.env.script)) = some ([0x0100000000#40], [.send 0x0300000000#40]) := by decide

/-! ## The assembler: R72 to R79, P1 to P4 -/

theorem test_assemble_updb_char :
    Asm.assembleLine [' ', 'u', 'p', 'd', 'b', ' ', '\'', '1', '\'', ' ', ';', 'x'] = some [0x0200000031#40] := by decide

theorem test_assemble_accwr_hex :
    Asm.assembleLine ['A', 'C', 'C', 'W', 'R', ' ', '0', 'x', '3', '4', '0', 'A', 'C', '5', 'E', '3'] =
      some [0x05340AC5E3#40] := by decide

theorem test_assemble_calc_segments :
    Asm.assembleLine ['C', 'A', 'L', 'C', ' ', '"', '1', '"', ',', ' ', '"', '2', '3', '"'] =
      some [0x0100000000#40, 0x0200000031#40, 0x0200000032#40, 0x0200000033#40, 0x0300000000#40] := by decide

theorem test_assemble_word40 :
    Asm.assembleLine ['.', 'w', 'o', 'r', 'd', '4', '0', ' ', '0', 'x', '0', '9', '0', '0', '0', '0', '0', '0', '0', '0'] =
      some [0x0900000000#40] := by decide

/-- Log entry 13: no blank before a quoted operand, and operands of both kinds joined. -/
theorem test_assemble_choices :
    Asm.assembleLine ['U', 'P', 'D', 'B', '\'', '1', '\''] = some [0x0200000031#40] ∧
    Asm.assembleLine ['A', 'D', 'D', ' ', '"', '1', '"', ',', '5', '0'] = some [0x0200000031#40, 0x0200000032#40] := by
  decide

theorem test_assemble_out_of_range : Asm.assembleLine ['U', 'P', 'D', 'B', ' ', '2', '5', '6'] = none := by decide

theorem test_assemble_empty_update : Asm.assembleLine ['U', 'P', 'D', 'A', 'T', 'E', ' ', '"', '"'] = some [] := by decide

theorem test_assemble_waittbl : Asm.assemble .waittbl = some [0x0600000000#40] := by decide

theorem test_listing : Asm.listing 0x0200000031#40 = ['0', '2', '0', '0', '0', '0', '0', '0', '3', '1'] := by decide

/-! ## Witnesses: a state and operands that meet each statement's hypotheses -/

theorem witness_ready : Ready ready := ready_withTableComplete _

theorem table_of_reset {s : State} (ht : s.table = []) (hg : s.tgI = 0#9) : TableInv s := by
  refine ⟨by simp [hg], by rw [ht]; rfl, fun i hi => ?_⟩
  rw [ht, hg]; rfl

/-- A core at reset with a UPDB waiting is in the invariant. -/
theorem witness_inv_waiting (turns : List Config.Agent) : Inv depthOne (waiting 0x0200000031#40 turns) :=
  ⟨table_of_reset rfl rfl, .inl ⟨rfl, rfl, rfl⟩, Nat.le_refl 1, Nat.zero_le _⟩

theorem witness_inv_ready : Inv depthOne ready :=
  ⟨tableInv_withTableComplete _, .inl ⟨rfl, rfl, rfl⟩, by decide, by decide⟩

theorem witness_ResetIsOneStepFromAnyState :
    nextAgent (start [.host] [.reset]) = .host ∧ hostAction (useTurn (start [.host] [.reset])) = .reset := ⟨rfl, rfl⟩

theorem witness_ReservedEncodingsAreIllegal :
    decode (commandWord 0x09#8 0#32) = .illegal .reservedOpcode ∧ decode (commandWord 0x08#8 1#32) = .illegal .reservedArgBits ∧
    decode (commandWord 0x06#8 0x100#32) = .illegal .reservedArgBits ∧
    decode (commandWord 0x05#8 0xFFFFFFFF#32) = .cmd (.accwr 0xFFFFFFFF#32) := by decide

theorem witness_DecodeAgreesWithTheOpcodeTable :
    opcodeRows.any (fun r => r.holds 0x02000000FF#40) = true ∧ opcodeRows.any (fun r => r.holds 0x0200000100#40) = false := by
  decide

theorem witness_EncodeOfDecodeIsTheWord : decode 0x05FFFFFFFF#40 = .cmd (.accwr 0xFFFFFFFF#32) := by decide

/-- A command that reads no table, at TG_I = 0. -/
theorem witness_StepExecutesTheDecodedCommand :
    nextAgent (waiting 0x0100000000#40 [.engine]) = .engine ∧ (waiting 0x0100000000#40 [.engine]).cmdq = [0x0100000000#40] ∧
    (waiting 0x0100000000#40 [.engine]).rspq.length < Config.params.rspDepth ∧ decode 0x0100000000#40 = .cmd .seed ∧
    ((waiting 0x0100000000#40 [.engine]).tgI = 256#9 ∨ ((∀ b, Instr.seed ≠ .updb b) ∧ ∀ k, Instr.seed ≠ .tblrd k)) :=
  ⟨rfl, rfl, Nat.succ_pos _, by decide, .inr ⟨fun _ h => Instr.noConfusion h, fun _ h => Instr.noConfusion h⟩⟩

/-- A table reader, on a complete table. -/
theorem witness_StepExecutesTheDecodedCommand_reader :
    let s := { ready with cmdq := [0x0200000031#40], env := { ready.env with turns := [.engine] } }
    nextAgent s = .engine ∧ s.rspq.length < Config.params.rspDepth ∧ decode 0x0200000031#40 = .cmd (.updb 0x31#8) ∧
      s.tgI = 256#9 :=
  ⟨rfl, Nat.succ_pos _, by decide, rfl⟩

/-- Each clause: no command; RSPQ full; a reader held; a reader let through; an illegal word. -/
theorem witness_EngineStepIsTheOneOfTheSpec :
    State.reset.cmdq = [] ∧ depthOne.rspDepth ≤ [0x0#33].length ∧
    (decode 0x0600000000#40 = .cmd (.tblrd 0x00#8) ∧ (waiting 0x0600000000#40 []).tgI ≠ 256#9) ∧
    (ready.rspq.length < depthOne.rspDepth ∧ ready.tgI = 256#9) ∧ decode 0x0900000000#40 = .illegal .reservedOpcode := by
  decide

/-- The reserved bit next to the operand, and the entry that UPDB reads. -/
theorem witness_UpdbCombinesOneByte :
    (0x00000100#32).extractLsb' 8 24 ≠ 0#24 ∧
    tableEntry (readyAcc 0xFFFFFFFF#32) (((0xFFFFFFFF#32) ^^^ (0x31#8).setWidth 32).extractLsb' 0 8) = some 0x7CDCEFB7#32 := by
  decide

theorem witness_TblrdReadsATableEntry : tableEntry ready 0xFF#8 = some 0x2D02EF8D#32 ∧ Ready ready :=
  ⟨(witness_ready.2 0xFF#8).trans (by decide), witness_ready⟩

/-- The premise of NopOnlyResponds, SeedStartsACalculation, FinReadsTheChecksum, AccrdReadsTheAccumulator,
StatReadsStatus and ErrclrClearsTheCapture on ARG: the highest and the lowest reserved bit. -/
theorem witness_nonzero_arg : (0x80000000#32) ≠ 0#32 ∧ (0x00000001#32) ≠ 0#32 := by decide

/-- A step from TG_I = 256 that is no reset. -/
theorem witness_StatReadsStatus :
    ready.tgI = 256#9 ∧
    (∃ t, stepWith depthOne (withTableComplete (start [.tgen] [])) = .next t) ∧
    ¬ (nextAgent (withTableComplete (start [.tgen] [])) = .host) :=
  ⟨rfl, ⟨_, rfl⟩, by decide⟩

/-- Each of the five reading commands answers next on a ready core, whose TABLE follows TG_I. -/
theorem witness_ReadingCommandsChangeNothing :
    (∃ t, exec .fin ready = .next t) ∧ (∃ t, exec .accrd ready = .next t) ∧ (∃ t, exec .stat ready = .next t) ∧
    (∃ t, exec .nop ready = .next t) ∧ (∃ t, exec (.tblrd 0x80#8) ready = .next t) ∧ TableInv ready :=
  ⟨⟨_, rfl⟩, ⟨_, rfl⟩, ⟨_, rfl⟩, ⟨_, rfl⟩, exec_completes (fun k => ⟨_, witness_ready.2 k⟩), tableInv_withTableComplete _⟩

theorem witness_CommandsLeaveWhatTheyDoNotName :
    (∃ t, exec .errclr captured = .next t) ∧ (∃ t, exec (.accwr 5#32) captured = .next t) ∧
    ∃ t, exec (.updb 0x31#8) ready = .next t :=
  ⟨⟨_, rfl⟩, ⟨_, rfl⟩, exec_completes (fun k => ⟨_, witness_ready.2 k⟩)⟩

/-- Both stops: an unwritten entry at reset. -/
theorem witness_OnlyAnUnwrittenEntryStopsACommand :
    exec (.tblrd 0x07#8) State.reset = .fault (.unwrittenTableEntry 0x07#8) ∧
    exec (.updb 0x31#8) State.reset = .fault (.unwrittenTableEntry 0x31#8) := ⟨rfl, rfl⟩

theorem witness_IllegalCommandIsCapturedAndAnswered :
    (waiting 0x0900000000#40 []).cmdq = [0x0900000000#40] ∧ (waiting 0x0900000000#40 []).rspq.length < depthOne.rspDepth ∧
    decode 0x0900000000#40 = .illegal .reservedOpcode := by decide

theorem witness_FirstIllegalCommandIsKept :
    captured.ill = true ∧ (∀ w ∈ [0x0200000131#40], ∃ c, decode w = .illegal c) ∧
    (∃ t, exec .errclr captured = .next t) ∧ decode 0x0200000131#40 = .illegal .reservedArgBits :=
  ⟨rfl, fun w hw => ⟨.reservedArgBits, by simp at hw; subst hw; decide⟩, ⟨_, rfl⟩, by decide⟩

theorem witness_IllegalReaderIsNotHeld :
    (0x00000100#32).extractLsb' 8 24 ≠ 0#24 ∧ (waiting (commandWord 0x06#8 0x100#32) []).tgI.toNat < 256 ∧
    (waiting (commandWord 0x06#8 0x100#32) []).rspq.length < depthOne.rspDepth := by decide

/-- The two ends of TGEN's range. -/
theorem witness_TgenFillsTheTableInOrder :
    State.reset.tgI.toNat < 256 ∧ (255#9).toNat < 256 ∧ 256 ≤ ready.tgI.toNat := by decide

/-- 256 TGEN turns, with a HOST turn that only takes, from reset. -/
theorem witness_TgenTurnsCompleteTheTable :
    let ts := Config.Agent.host :: List.replicate 256 .tgen
    let s := start (ts ++ [.engine]) [.take]
    Inv depthOne s ∧ (∀ a ∈ s.env.script, a ≠ .reset) ∧ ts.count .host ≤ s.env.script.length ∧
      256 - s.tgI.toNat ≤ ts.count .tgen := by
  refine ⟨⟨table_of_reset rfl rfl, .inl ⟨rfl, rfl, rfl⟩, Nat.zero_le _, Nat.zero_le _⟩, ?_, ?_, ?_⟩
  · intro a ha
    rw [List.mem_singleton.mp ha]
    exact fun h => Config.HostAction.noConfusion h
  · rw [List.count_cons, List.count_replicate]
    exact Nat.le_refl 1
  · rw [List.count_cons, List.count_replicate]
    exact Nat.le_refl 256

theorem witness_TableReaderWaitsForTheTable :
    (waiting 0x0200000031#40 []).cmdq = [0x0200000031#40] ∧ decode 0x0200000031#40 = .cmd (.updb 0x31#8) ∧
    (waiting 0x0200000031#40 []).tgI ≠ 256#9 ∧ ready.tgI = 256#9 ∧ ready.rspq.length < depthOne.rspDepth ∧
    needsTable (decode 0x0300000000#40) = false := by decide

theorem witness_HeldCommandIsReleased :
    let s := waiting 0x0200000031#40 (List.replicate 256 .tgen ++ [.engine])
    Inv depthOne s ∧ s.cmdq = [0x0200000031#40] ∧ heldByTable 0x0200000031#40 s = true ∧ s.rspq.length < depthOne.rspDepth ∧
      s.env.turns = List.replicate 256 .tgen ++ [.engine] :=
  ⟨witness_inv_waiting _, rfl, rfl, Nat.one_pos, rfl⟩

theorem witness_EngineAndTgenTurnsCommute :
    (∃ t, engineStep depthOne (waiting 0x0100000000#40 []) = .next t) ∧ decode 0x0100000000#40 ≠ .cmd .stat ∧
    (waiting 0x0200000031#40 []).tgI ≠ 255#9 := ⟨⟨_, rfl⟩, by decide, by decide⟩

/-- Bytes with a FIN and an illegal word between them. -/
theorem witness_UninterruptedRunIsTheUpdateFold :
    Ready ready ∧ (∀ w ∈ [0x0200000031#40, 0x0300000000#40, 0x0900000000#40, 0x0200000032#40], loadsAcc w = false) ∧
    updbBytes [0x0200000031#40, 0x0300000000#40, 0x0900000000#40, 0x0200000032#40] = [0x31#8, 0x32#8] := by
  refine ⟨witness_ready, ?_, by decide⟩
  simp only [List.forall_mem_cons]
  exact ⟨by decide, by decide, by decide, by decide, fun _ h => absurd h List.not_mem_nil⟩

theorem witness_CalcReturnsTheChecksum :
    Ready ready ∧ Asm.assemble (.calculate [[0x31], []]) = some [0x0100000000#40, 0x0200000031#40, 0x0300000000#40] :=
  ⟨witness_ready, by decide⟩

theorem witness_FinIsAPeek_bytes :
    Ready ready ∧ (∀ w ∈ [0x0200000031#40], loadsAcc w = false) ∧ ∀ w ∈ [0x0600000080#40], loadsAcc w = false := by
  refine ⟨witness_ready, ?_, ?_⟩
  · simp only [List.forall_mem_cons]
    exact ⟨by decide, fun _ h => absurd h List.not_mem_nil⟩
  · simp only [List.forall_mem_cons]
    exact ⟨by decide, fun _ h => absurd h List.not_mem_nil⟩

theorem witness_FinIsAPeek :
    (∃ m, executeAll [0x0100000000#40] ready = .next m) ∧
    ∃ u, executeAll [0x0400000000#40] (readyAcc 0xFFFFFFFF#32) = .next u := ⟨⟨_, rfl⟩, ⟨_, rfl⟩⟩

theorem witness_ReseedingForgetsThePast : Ready ready ∧ Ready captured := ⟨witness_ready, ⟨rfl, witness_ready.2⟩⟩

theorem witness_UnseededUseComputesFromAcc :
    (∃ t, exec .fin ready = .next t) ∧ (∃ t, exec .accrd ready = .next t) ∧ ∃ t, exec (.updb 0x31#8) ready = .next t :=
  ⟨⟨_, rfl⟩, ⟨_, rfl⟩, exec_completes (fun k => ⟨_, witness_ready.2 k⟩)⟩

theorem witness_SavedCalculationGoesOn :
    Ready (readyAcc 0x12345678#32) ∧
    (∃ m, executeAll (updbWords [] ++ [encode .accrd]) (readyAcc 0x12345678#32) = .next m ∧
      m.rspq.getLast? = some (responseWord false 0x12345678#32) ∧ ∃ u, executeAll [0x0100000000#40] m = .next u) :=
  ⟨⟨rfl, witness_ready.2⟩, ⟨_, rfl, rfl, _, rfl⟩⟩

theorem witness_EveryStepKeepsTheInvariant :
    Inv depthOne (waiting 0x0200000031#40 [.tgen]) ∧ ∃ t, stepWith depthOne (waiting 0x0200000031#40 [.tgen]) = .next t :=
  ⟨witness_inv_waiting _, ⟨_, rfl⟩⟩

/-- The clause about this core: its own step, whatever its depths. -/
theorem witness_EveryStepKeepsTheInvariant_step :
    Inv Config.params (start [.tgen] []) ∧ ∃ t, step (start [.tgen] []) = .next t :=
  ⟨⟨table_of_reset rfl rfl, .inl ⟨rfl, rfl, rfl⟩, Nat.zero_le _, Nat.zero_le _⟩, ⟨_, rfl⟩⟩

theorem witness_RefinementHoldsAtReset : Env.start.sent = [] ∧ Env.start.taken = [] := ⟨rfl, rfl⟩

theorem witness_EveryStepRefinesTheSequentialReference :
    let s := { waiting 0x0100000000#40 [.engine] with
      env := { (start [.engine] []).env with sent := [0x0100000000#40] } }
    Inv depthOne s ∧ Refines s ∧ ∃ t, stepWith depthOne s = .next t :=
  ⟨⟨table_of_reset rfl rfl, .inl ⟨rfl, rfl, rfl⟩, by decide, by decide⟩, ⟨[], rfl, rfl, trivial⟩, ⟨_, rfl⟩⟩

/-- A run of one STAT, as HOST, ENGINE, HOST. -/
def runPlain : State :=
  { start [] [] with env := { turns := [], script := [], tick := 3, sent := [0x0700000000#40], taken := [0x0#33] } }

/-- A run of the same STAT in which TGEN moves first. -/
def runTgenFirst : State :=
  { start [] [] with
    table := [(0, 0#32)]
    tgI := 1#9
    env := { turns := [], script := [], tick := 4, sent := [0x0700000000#40], taken := [0x000010000#33] } }

theorem reachable_runPlain : Reachable depthOne runPlain := by
  have h0 := Reachable.start (p := depthOne) (start [.host, .engine, .host] [.send 0x0700000000#40, .take]).env rfl rfl
  have h1 := Reachable.step _ _ h0 rfl
  have h2 := Reachable.step _ _ h1 rfl
  exact Reachable.step _ _ h2 rfl

theorem reachable_runTgenFirst : Reachable depthOne runTgenFirst := by
  have h0 := Reachable.start (p := depthOne) (start [.tgen, .host, .engine, .host] [.send 0x0700000000#40, .take]).env rfl rfl
  have h1 := Reachable.step _ _ h0 rfl
  have h2 := Reachable.step _ _ h1 rfl
  have h3 := Reachable.step _ _ h2 rfl
  exact Reachable.step _ _ h3 rfl

/-- Two complete runs of one command whose responses differ. -/
theorem witness_ObservationsDoNotDependOnTheSchedule :
    Reachable depthOne runPlain ∧ Reachable depthOne runTgenFirst ∧ RunComplete [0x0700000000#40] runPlain ∧
    RunComplete [0x0700000000#40] runTgenFirst :=
  ⟨reachable_runPlain, reachable_runTgenFirst, ⟨rfl, rfl, rfl, rfl⟩, ⟨rfl, rfl, rfl, rfl⟩⟩

theorem witness_StatCountsNeverDecrease :
    Reachable depthOne runTgenFirst ∧ statCounts runTgenFirst.env.sent (allResponses runTgenFirst) = [1] ∧
    ∃ t, exec .stat runTgenFirst = .next t := ⟨reachable_runTgenFirst, by decide, ⟨_, rfl⟩⟩

theorem witness_EachExecutedCommandGivesOneResponse :
    (waiting 0x0900000000#40 []).cmdq = [0x0900000000#40] ∧
    look (engineStep depthOne (waiting 0x0900000000#40 [])) (fun t => decide (t.cmdq ≠ [0x0900000000#40])) = some true := by
  decide

/-- SEED changes ACC and SEEDED; reset changes them back. -/
theorem witness_AccIsWrittenOnlyByItsCommands :
    look (stepWith depthOne (waiting 0x0100000000#40 [.engine])) (fun t => decide (t.acc ≠ 0#32)) = some true ∧
    look (stepWith depthOne { start [.host] [.reset] with acc := 5#32 }) (fun t => decide (t.acc ≠ 5#32)) = some true := by
  decide

theorem witness_SeededIsSetByLoadingAndClearedByReset :
    look (stepWith depthOne (waiting 0x0500000000#40 [.engine])) (fun t => decide (t.seeded ≠ false)) = some true ∧
    look (stepWith depthOne { start [.host] [.reset] with seeded := true }) (fun t => decide (t.seeded ≠ true)) =
      some true := by decide

theorem witness_TableIsWrittenOnceByTgen :
    look (stepWith depthOne (start [.tgen] [])) (fun t => decide (tableEntry t 0x00#8 ≠ none)) = some true ∧
    look (stepWith depthOne { start [.host] [.reset] with table := [(0, 0#32)], tgI := 1#9 })
      (fun t => decide (tableEntry t 0x00#8 ≠ some 0#32)) = some true := by decide

/-- Each clause: room, full, a response to take, none. -/
theorem witness_HostSendsAndTakesInOrder :
    (start [] [.send 0x0#40]).cmdq.length < depthOne.cmdDepth ∧
    depthOne.cmdDepth ≤ (waiting 0x0#40 []).cmdq.length ∧ (start [] [.take]).rspq = [] ∧
    ({ start [] [.take] with rspq := [0x1#33] } : State).rspq = [0x1#33] := by decide

theorem witness_FullQueuesHoldHostAndEngine :
    let s := { start [] [.send 0x0#40] with cmdq := [0x0#40], rspq := [0x0#33] }
    s.cmdq.length = depthOne.cmdDepth ∧ s.rspq.length = depthOne.rspDepth ∧ s.env.script = [.send 0x0#40] := ⟨rfl, rfl, rfl⟩

theorem witness_AssemblerMakesOnlyLegalWords :
    Asm.assemble (.updb 255) = some [0x02000000FF#40] ∧ Asm.assemble (.updb 256) = none ∧
    (∀ n, Stmt.updb 255 ≠ .word40 n) := ⟨by decide, by decide, fun _ h => Stmt.noConfusion h⟩

/-- The other clauses: a UPDB that completes, and the state of the example of R132. -/
theorem witness_StatReadsStatus_others :
    look (engineStep depthOne { ready with cmdq := [0x0200000031#40] }) (fun t => decide (t.cmdq ≠ [0x0200000031#40])) =
      some true ∧
    needsTable (decode 0x0200000031#40) = true ∧
    (let s := { ready with seeded := true }
     s.tgI = 256#9 ∧ s.seeded = true ∧ s.ill = false ∧ ErrorInv s) :=
  ⟨by decide, by decide, rfl, rfl, rfl, .inl ⟨rfl, rfl, rfl⟩⟩

/-- The last clause of TBLRD: an entry that one more step leaves. -/
theorem witness_TblrdReadsATableEntry_step :
    Inv depthOne (withTableComplete (start [.tgen] [])) ∧
    tableEntry (withTableComplete (start [.tgen] [])) 0x80#8 = some 0xEDB88320#32 ∧
    (∃ t, stepWith depthOne (withTableComplete (start [.tgen] [])) = .next t) ∧
    ¬ (nextAgent (withTableComplete (start [.tgen] [])) = .host) :=
  ⟨⟨tableInv_withTableComplete _, .inl ⟨rfl, rfl, rfl⟩, Nat.zero_le _, Nat.zero_le _⟩,
    ((ready_withTableComplete _).2 0x80#8).trans (by decide), ⟨_, rfl⟩, by decide⟩

/-- The first two clauses: an illegal word, and one that is held. -/
theorem witness_IllegalReaderIsNotHeld_others :
    decode 0x0600000100#40 = .illegal .reservedArgBits ∧ heldByTable 0x0200000031#40 (waiting 0x0200000031#40 []) = true := by
  decide

theorem witness_StatusWordHasItsFields :
    ErrorInv State.reset ∧ ErrorInv captured ∧ captured.ill = true ∧
    (∃ t, executeWord 0x0800000000#40 captured = .next t) ∧ decode 0x0800000000#40 = .cmd .errclr ∧
    ∃ t, executeWord 0x0700000000#40 captured = .next t :=
  ⟨.inl ⟨rfl, rfl, rfl⟩, .inr (.inl ⟨rfl, rfl, by decide⟩), rfl, ⟨_, rfl⟩, by decide, ⟨_, rfl⟩⟩

theorem witness_UnseededUseComputesFromAcc_reachable :
    Reachable depthOne runPlain ∧
    ∀ w ∈ runPlain.env.sent.take (runPlain.env.sent.length - runPlain.cmdq.length), loadsAcc w = false := by
  refine ⟨reachable_runPlain, ?_⟩
  show ∀ w ∈ [0x0700000000#40], loadsAcc w = false
  simp only [List.forall_mem_cons]
  exact ⟨by decide, fun _ h => absurd h List.not_mem_nil⟩

theorem witness_AssemblerMakesOnlyLegalWords_bounds :
    4294967295 < 4294967296 ∧ Asm.assemble (.accwr 4294967295) = some [0x05FFFFFFFF#40] ∧
    Asm.assemble (.accwr 4294967296) = none ∧ Asm.assemble (.tblrd 255) = some [0x06000000FF#40] := by decide

theorem witness_NoStepOfTheInvariantStops : Inv depthOne (waiting 0x0200000031#40 [.engine]) := witness_inv_waiting _

theorem witness_ReadyUpdbIsTheUpdateFunction : Ready (readyAcc 0xFFFFFFFF#32) := ⟨rfl, witness_ready.2⟩

theorem witness_EveryCommandCompletesOnAReadyCore : Ready captured := ⟨rfl, witness_ready.2⟩

theorem witness_EveryStepKeepsTheRecord :
    CoreState.inBounds depthOne (waiting 0x0200000031#40 [.tgen]).toCoreState = true ∧
    CoreState.inBounds depthOne ready.toCoreState = true ∧
    ∃ t, stepWith depthOne (waiting 0x0200000031#40 [.tgen]) = .next t := by
  refine ⟨by decide, ?_, _, rfl⟩
  have h : Memory.wf ready.table = true := completeTable_wf
  rw [CoreState.inBounds, h]
  rfl

/-- The bounds refuse a TG_I of 257, an index of 256, and a queue beyond its depth. -/
theorem test_record_bounds :
    CoreState.inBounds depthOne { State.reset.toCoreState with tgI := 257#9 } = false ∧
    CoreState.inBounds depthOne { State.reset.toCoreState with table := [(256, 0#32)] } = false ∧
    CoreState.inBounds depthOne { State.reset.toCoreState with cmdq := [0#40, 0#40] } = false ∧
    CoreState.inBounds depthOne { State.reset.toCoreState with rspq := [0#33, 0#33] } = false := by decide

/-- HOST's turn, with one action first in two different scripts, and TGEN's turn. -/
theorem witness_TheNineItemsAreTheCompleteState :
    (let s := start [.host] [.take]
     let s' := start [.host, .engine] [.take, .reset]
     s.toCoreState = s'.toCoreState ∧ nextAgent s = nextAgent s' ∧ hostAction (useTurn s) = hostAction (useTurn s')) ∧
    (let s := start [.tgen] [.take]
     let s' := start [.tgen] [.reset]
     s.toCoreState = s'.toCoreState ∧ nextAgent s = nextAgent s' ∧ nextAgent s ≠ .host) :=
  ⟨⟨rfl, rfl, rfl⟩, rfl, rfl, by decide⟩

theorem witness_core_step : Sys2Proof.core.reset = State.reset := rfl

end Sys2Proof.Tests
end

section
/-! The STATUS word of a state: each field of 10_state.md R28 read back from its bits, and the error-capture fields
kept by every executed word but ERRCLR. -/

namespace Sys2Proof.Machine

/-- A word's field is read bit by bit. -/
theorem extractLsb'_eq_of_bits {v : Word} {lo n : Nat} {f : BitVec n}
    (h : ∀ k < n, v.getLsbD (lo + k) = f.getLsbD k) : v.extractLsb' lo n = f := by
  apply BitVec.eq_of_getLsbD_eq
  intro k hk
  rw [BitVec.getLsbD_extractLsb', decide_eq_true hk, Bool.true_and, h k hk]

theorem statusWord_ecause (s : State) : (statusWord s).extractLsb' 4 2 = s.ecause := by
  refine extractLsb'_eq_of_bits fun k hk => ?_
  simp (disch := omega) only [statusWord, statusFrom_bit, if_neg, if_pos, Nat.add_sub_cancel_left]

theorem statusWord_eop (s : State) : (statusWord s).extractLsb' 8 8 = s.eop := by
  refine extractLsb'_eq_of_bits fun k hk => ?_
  simp (disch := omega) only [statusWord, statusFrom_bit, if_neg, if_pos, Nat.add_sub_cancel_left]

theorem statusWord_reserved_7_6 (s : State) : (statusWord s).extractLsb' 6 2 = 0#2 := by
  refine extractLsb'_eq_of_bits fun k hk => ?_
  simp (disch := omega) only [statusWord, statusFrom_bit, if_neg, if_pos, BitVec.getLsbD_zero]

theorem statusWord_reserved_31_25 (s : State) : (statusWord s).extractLsb' 25 7 = 0#7 := by
  refine extractLsb'_eq_of_bits fun k hk => ?_
  simp (disch := omega) only [statusWord, statusFrom_bit, if_neg, BitVec.getLsbD_zero]

/-- Bits [15:2] of STATUS hold the error-capture fields and reserved bits, nothing else. -/
theorem statusWord_errorBits (s : State) :
    (statusWord s).extractLsb' 2 14 = s.eop ++ 0#2 ++ s.ecause ++ 0#1 ++ BitVec.ofBool s.ill := by
  refine extractLsb'_eq_of_bits fun k hk => ?_
  simp (disch := omega) only [statusWord, statusFrom_bit, BitVec.getLsbD_append, BitVec.getLsbD_ofBool]
  interval_cases k <;> simp

/-- ECAUSE of a capture is never 3 (10_state.md R28). -/
theorem ErrorInv.ecause_ne_three {s : State} (h : ErrorInv s) : s.ecause ≠ 3#2 := by
  obtain ⟨-, hc, -⟩ | ⟨-, hc, -⟩ | ⟨-, hc, -⟩ := h <;> rw [hc] <;> decide

/-- No command's meaning but ERRCLR's writes an error-capture field. -/
theorem exec_keeps_errors {i : Instr} {s t : State} (h : exec i s = .next t) (hi : i ≠ .errclr) :
    t.ill = s.ill ∧ t.ecause = s.ecause ∧ t.eop = s.eop := by
  cases i
  case updb b | tblrd b =>
    obtain ⟨v, -, h⟩ := withTableRead_next h
    cases h
    exact ⟨rfl, rfl, rfl⟩
  case errclr => exact absurd rfl hi
  all_goals
    cases h
    exact ⟨rfl, rfl, rfl⟩

/-- While ILL = 1 the capture is kept by taking the exception again (60_exceptions.md R144). -/
theorem raiseIllegal_keeps_errors (c : Cause) (op : Byte) {s : State} (h : s.ill = true) :
    (raiseIllegal c op s).ill = s.ill ∧ (raiseIllegal c op s).ecause = s.ecause ∧
      (raiseIllegal c op s).eop = s.eop := by
  simp [raiseIllegal_eq, h]

/-- While ILL = 1 every executed word but ERRCLR, legal or illegal, keeps the error-capture fields. -/
theorem executeWord_keeps_errors {w : CmdWord} {s t : State} (h : executeWord w s = .next t)
    (hw : decode w ≠ .cmd .errclr) (hill : s.ill = true) :
    t.ill = s.ill ∧ t.ecause = s.ecause ∧ t.eop = s.eop := by
  obtain ⟨c, -, hr⟩ | ⟨i, hd, hr⟩ := executeWord_cases h
  · cases hr
    exact raiseIllegal_keeps_errors c _ hill
  · exact exec_keeps_errors hr.symm fun hi => hw (hi ▸ hd)

/-- The word of ERRCLR executed. -/
theorem executeWord_errclr {w : CmdWord} (hw : decode w = .cmd .errclr) (s : State) :
    executeWord w s = .next (respond false 0x00000000#32 (clearErrors s)) := by
  unfold executeWord
  rw [hw]
  rfl

/-- Settles O20: the fields by their bits; bits [15:2] are the error-capture fields, which ERRCLR clears and every other
executed word keeps while ILL = 1. -/
theorem statusWordHasItsFields : Obligations.StatusWordHasItsFields := by
  refine ⟨by decide, fun s hs => ?_, fun s => ?_, fun w s t h => ⟨fun hw => ?_, fun hw hill => ?_⟩⟩
  · rw [statusWord_ecause]
    exact hs.ecause_ne_three
  · exact ⟨statusFrom_bit _ _ _ _ _ _ 0 (by decide), statusFrom_bit _ _ _ _ _ _ 1 (by decide),
      statusFrom_bit _ _ _ _ _ _ 2 (by decide), statusFrom_bit _ _ _ _ _ _ 3 (by decide), statusWord_ecause s,
      statusWord_reserved_7_6 s, statusWord_eop s, statusTgCount_statusFrom _ _ _ _ _ _, statusWord_reserved_31_25 s⟩
  · obtain rfl : _ = t := Host.Outcome.next.inj ((executeWord_errclr hw s).symm.trans h)
    simp only [statusWord_errorBits, respond_ill, respond_ecause, respond_eop, clearErrors_ill, clearErrors_ecause,
      clearErrors_eop]
    decide
  · obtain ⟨hi, hc, ho⟩ := executeWord_keeps_errors h hw hill
    rw [statusWord_errorBits, statusWord_errorBits, hi, hc, ho]

end Sys2Proof.Machine
end

section
/-! TABLE along TGEN's turns: what they leave of the command registers, which entries they keep, and what the commands
that read TABLE answer on a ready core (20_memory.md R47, 40_table_generator.md R83, R88). -/

namespace Sys2Proof.Machine

/-- TABLE follows TG_I in every state with the same TABLE and TG_I. -/
theorem TableInv.congr {s t : State} (h : TableInv s) (htable : t.table = s.table) (htgI : t.tgI = s.tgI) :
    TableInv t where
  count := htgI ▸ h.count
  canonical := htable ▸ h.canonical
  entries i hi := by rw [htable, htgI, h.entries i hi]

/-- A written entry holds its generated value (10_state.md R25). -/
theorem TableInv.entry_eq_genEntry {s : State} (h : TableInv s) {k : Byte} {v : Word} (hv : tableEntry s k = some v) :
    v = genEntry k := by
  rw [tableEntry, h.entries k.toNat k.isLt, BitVec.ofNat_toNat, BitVec.setWidth_eq] at hv
  split at hv
  · exact (Option.some.inj hv).symm
  · cases hv

/-- The core is ready once TG_I = 256 (70_reset_and_hazards.md R179). -/
theorem TableInv.ready {s : State} (h : TableInv s) (h256 : s.tgI = 256#9) : Ready s := by
  refine ⟨h256, fun k => ?_⟩
  have hk : k.toNat < (256#9).toNat := k.isLt
  rw [tableEntry, h.entries k.toNat k.isLt, h256, if_pos hk, BitVec.ofNat_toNat, BitVec.setWidth_eq]

/-- UPDB on a ready core is the byte-update function (41_calculator_core.md R100, R103). -/
theorem exec_updb_ready {s : State} (h : Ready s) (b : Byte) :
    exec (.updb b) s = .next (respond false 0x00000000#32 (setAcc (upd1 s.acc b) s)) :=
  withTableRead_some _ (h.2 _)

/-- TBLRD of a written entry (40_table_generator.md R88). -/
theorem exec_tblrd_some {s : State} {k : Byte} {v : Word} (h : tableEntry s k = some v) :
    exec (.tblrd k) s = .next (respond false v s) :=
  withTableRead_some _ h

/-- TGEN's turn leaves what the commands determine. -/
theorem commandState_tgenStep (s : State) : commandState (tgenStep s) = commandState s := by
  obtain ⟨-, h⟩ | ⟨-, h⟩ := tgenStep_cases s <;> rw [h]
  rfl

theorem commandState_tgenTurns (n : Nat) (s : State) : commandState (tgenTurns n s) = commandState s := by
  induction n generalizing s with
  | zero => rfl
  | succ n ih => exact (ih (tgenStep s)).trans (commandState_tgenStep s)

@[simp] theorem tgenTurns_acc (n : Nat) (s : State) : (tgenTurns n s).acc = s.acc :=
  congrArg Ref.acc (commandState_tgenTurns n s)

/-- TGEN's turn keeps an entry that holds its generated value, as it writes no other value. -/
theorem tableEntry_tgenStep {s : State} {k : Byte} (h : tableEntry s k = some (genEntry k)) :
    tableEntry (tgenStep s) k = some (genEntry k) := by
  obtain ⟨-, hs⟩ | ⟨-, hs⟩ := tgenStep_cases s <;> rw [hs]
  · have hw : tableEntry (tgenWrite s) k = if k = tgenIndex s then some (genEntry (tgenIndex s)) else tableEntry s k :=
      tableEntry_tableWrite _ _ _ _
    rw [hw]
    split_ifs with hk
    · rw [hk]
    · exact h
  · exact h

theorem tableEntry_tgenTurns {s : State} {k : Byte} (n : Nat) (h : tableEntry s k = some (genEntry k)) :
    tableEntry (tgenTurns n s) k = some (genEntry k) := by
  induction n generalizing s with
  | zero => exact h
  | succ n ih => exact ih (tableEntry_tgenStep h)

/-- Without its progress fields STATUS is one of what the commands determine (10_state.md R28). -/
theorem withoutProgress_statusWord {s t : State} (h : commandState t = commandState s) :
    withoutProgress (statusWord t) = withoutProgress (statusWord s) := by
  obtain ⟨-, hseeded, hill, hecause, heop⟩ := Ref.mk.inj h
  rw [statusWord, statusWord, hseeded, hill, hecause, heop]
  exact withoutProgress_statusFrom _ _ _ _ _ _ _ _

/-- Settles O21: FIN, ACCRD, NOP and STAT answer from what TGEN's turns leave, TBLRD from an entry they keep. -/
theorem readingCommandsChangeNothing : Obligations.ReadingCommandsChangeNothing := by
  intro i s t hi h
  obtain rfl | rfl | ⟨k, rfl⟩ | rfl | rfl := hi
  · cases h
    exact ⟨_, rfl, fun n _ => ⟨_, rfl, by simp⟩⟩
  · cases h
    exact ⟨_, rfl, fun n _ => ⟨_, rfl, by simp⟩⟩
  · obtain ⟨v, hv, h⟩ := withTableRead_next h
    cases h
    refine ⟨_, rfl, fun n hs => ⟨responseWord false v, ?_, by simp⟩⟩
    obtain rfl := hs.entry_eq_genEntry hv
    exact exec_tblrd_some (tableEntry_tgenTurns n hv)
  · cases h
    refine ⟨_, rfl, fun n _ => ⟨_, rfl, ?_⟩⟩
    rw [if_pos rfl, responseErr_responseWord, responseErr_responseWord, responseData_responseWord,
      responseData_responseWord]
    exact ⟨rfl, withoutProgress_statusWord (commandState_tgenTurns n _)⟩
  · cases h
    exact ⟨_, rfl, fun n _ => ⟨_, rfl, by simp⟩⟩

end Sys2Proof.Machine
end

section
/-! The refinement of the sequential reference: what each agent's turn does to it (20_memory.md R50, 30_encoding.md R71).
HOST and TGEN leave the executed commands as they are, ENGINE adds the one it executes. -/

namespace Sys2Proof.Machine

theorem Ref.after_concat (r : Ref) (ws : List CmdWord) (w : CmdWord) : r.after (ws ++ [w]) = (r.after ws).next w := by
  induction ws generalizing r with
  | nil => rfl
  | cons u ws ih => exact ih (r.next u)

theorem Ref.answersAll_concat {r : Ref} {ws : List CmdWord} {xs : List RspWord} {w : CmdWord} {x : RspWord}
    (h : r.answersAll ws xs) (hx : (r.after ws).answers w x) : r.answersAll (ws ++ [w]) (xs ++ [x]) := by
  induction ws generalizing r xs with
  | nil =>
    cases xs with
    | nil => exact ⟨hx, trivial⟩
    | cons y xs => exact h.elim
  | cons u ws ih =>
    cases xs with
    | nil => exact h.elim
    | cons y xs => exact ⟨h.1, ih h.2 hx⟩

/-- Executing the word leads from s to t as the sequential reference has it: its registers and its one response. -/
structure ExecutesAsReference (w : CmdWord) (s t : State) : Prop where
  cmdq : t.cmdq = s.cmdq
  env : t.env = s.env
  registers : commandState t = (commandState s).next w
  response : ∃ x, t.rspq = s.rspq ++ [x] ∧ (commandState s).answers w x

/-- An illegal word is captured and answered as in the reference (60_exceptions.md R143, R144). -/
theorem raiseIllegal_asReference {w : CmdWord} {c : Cause} (hd : decode w = .illegal c) (s : State) :
    ExecutesAsReference w s (raiseIllegal c (opField w) s) := by
  rw [raiseIllegal_eq]
  refine ⟨rfl, rfl, ?_, _, rfl, ?_⟩
  · cases hill : s.ill <;> simp [commandState, Ref.next, hd, hill]
  · simp only [Ref.answers, hd]

/-- A command's meaning is the reference's, when the table is complete for the two that read it. -/
theorem exec_asReference {w : CmdWord} {i : Instr} {s t : State} (hd : decode w = .cmd i) (h : exec i s = .next t)
    (hcount : s.tgI.toNat ≤ 256) (hready : needsTable (.cmd i) = true → Ready s) : ExecutesAsReference w s t := by
  obtain ⟨-, -, hcmdq, henv, -⟩ := exec_effect h
  suffices hs : commandState t = (commandState s).next w ∧ ∃ x, t.rspq = s.rspq ++ [x] ∧ (commandState s).answers w x
    from ⟨hcmdq, henv, hs.1, hs.2⟩
  simp only [Ref.next, Ref.answers, hd]
  cases i
  case updb b =>
    rw [exec_updb_ready (hready rfl) b] at h
    cases h
    exact ⟨rfl, _, rfl, rfl⟩
  case tblrd k =>
    rw [exec_tblrd_some ((hready rfl).2 k)] at h
    cases h
    exact ⟨rfl, _, rfl, rfl⟩
  case stat =>
    cases h
    exact ⟨rfl, _, rfl, s.tgI, hcount, rfl⟩
  all_goals
    cases h
    exact ⟨rfl, _, rfl, rfl⟩

/-- A word that the table hold lets through is executed as in the reference (70_reset_and_hazards.md R170). -/
theorem executeWord_asReference {w : CmdWord} {s t : State} (htable : TableInv s) (hheld : heldByTable w s = false)
    (h : executeWord w s = .next t) : ExecutesAsReference w s t := by
  obtain ⟨c, hd, hr⟩ | ⟨i, hd, hr⟩ := executeWord_cases h
  · cases hr
    exact raiseIllegal_asReference hd s
  · refine exec_asReference hd hr.symm htable.count fun hn => ?_
    rw [← hd] at hn
    obtain hn' | h256 := not_held_ready hheld
    · rw [hn'] at hn
      cases hn
    · exact htable.ready h256

/-- The oldest command removed from CMDQ and executed is the next of the executed commands. -/
theorem Refines.executed {w : CmdWord} {rest : List CmdWord} {s t : State} (h : Refines s) (hq : s.cmdq = w :: rest)
    (ht : ExecutesAsReference w { s with cmdq := rest } t) : Refines t := by
  obtain ⟨done, hsent, hregs, hresp⟩ := h
  obtain ⟨hcmdq, henv, hnext, x, hrspq, hx⟩ := ht
  have hs : commandState { s with cmdq := rest } = Ref.reset.after done := hregs
  rw [hs] at hnext hx
  refine ⟨done ++ [w], ?_, ?_, ?_⟩
  · rw [henv, hcmdq, hsent, hq, List.append_assoc, List.singleton_append]
  · rw [hnext, Ref.after_concat]
  · rw [allResponses, henv, hrspq, ← List.append_assoc]
    exact Ref.answersAll_concat hresp hx

theorem Refines.engineStep {p : Config.Params} {s t : State} (h : Refines s) (htable : TableInv s)
    (ht : engineStep p s = .next t) : Refines t := by
  obtain ⟨hr, -⟩ | ⟨w, rest, hq, -, hheld, hr⟩ := engineStep_cases ht
  · cases hr
    exact h
  · exact h.executed hq (executeWord_asReference (htable.congr rfl rfl) hheld hr.symm)

/-- A word sent is the newest of those that wait. -/
theorem Refines.sendCommand {s : State} (h : Refines s) (w : CmdWord) : Refines (sendCommand w s) := by
  obtain ⟨done, hsent, hregs, hresp⟩ := h
  refine ⟨done, ?_, hregs, hresp⟩
  rw [sendCommand_env_sent, sendCommand_cmdq, hsent, List.append_assoc]

/-- A response taken is the newest of those taken. -/
theorem Refines.takeResponse {s : State} {x : RspWord} {rest : List RspWord} (h : Refines s) (hq : s.rspq = x :: rest) :
    Refines { s with rspq := rest, env := { s.env with taken := s.env.taken ++ [x] } } := by
  obtain ⟨done, hsent, hregs, hresp⟩ := h
  refine ⟨done, hsent, hregs, ?_⟩
  rwa [allResponses, hq, List.append_cons] at hresp

theorem refines_assertReset (s : State) : Refines (assertReset s) := ⟨[], rfl, rfl, trivial⟩

theorem Refines.hostStep {s : State} (p : Config.Params) (h : Refines s) : Refines (hostStep p s) := by
  have hdrop : Refines (dropAction s) := h
  obtain ⟨-, hr⟩ | ⟨w, -, -, hr⟩ | ⟨x, rest, -, hq, hr⟩ | ⟨-, hr⟩ := hostStep_cases p s <;> rw [hr]
  · exact h
  · exact hdrop.sendCommand w
  · exact hdrop.takeResponse hq
  · exact refines_assertReset _

theorem Refines.tgenStep {s : State} (h : Refines s) : Refines (tgenStep s) := by
  obtain ⟨-, hr⟩ | ⟨-, hr⟩ := tgenStep_cases s <;> rw [hr] <;> exact h

/-- Settles O46: the turn of each agent keeps the refinement. -/
theorem everyStepRefinesTheSequentialReference : Obligations.EveryStepRefinesTheSequentialReference := by
  intro p s t hinv href hstep
  have huse : Refines (useTurn s) := href
  obtain ⟨-, hr⟩ | ⟨-, hr⟩ | ⟨-, hr⟩ := stepWith_cases hstep
  · cases hr
    exact huse.hostStep p
  · exact huse.engineStep (hinv.table.congr rfl rfl) hr.symm
  · cases hr
    exact huse.tgenStep

end Sys2Proof.Machine
end

section
/-! Decoding by format: an OP has one of the three formats or is reserved, and which ARGs each format rejects
(30_encoding.md R61, R64 to R66, R69). -/

namespace Sys2Proof

theorem decodeN_eq_reservedArgBits_iff (i : Instr) (arg : Word) :
    decodeN i arg = .illegal .reservedArgBits ↔ arg ≠ 0#32 := by
  unfold decodeN
  split <;> simp [*]

theorem decodeB_eq_reservedArgBits_iff (f : Byte → Instr) (arg : Word) :
    decodeB f arg = .illegal .reservedArgBits ↔ reservedOfB arg ≠ 0#24 := by
  unfold decodeB
  split <;> simp [*]

theorem decodeN_ne_reservedOpcode (i : Instr) (arg : Word) : decodeN i arg ≠ .illegal .reservedOpcode := by
  unfold decodeN
  split <;> simp

theorem decodeB_ne_reservedOpcode (f : Byte → Instr) (arg : Word) : decodeB f arg ≠ .illegal .reservedOpcode := by
  unfold decodeB
  split <;> simp

theorem decodeW_ne_illegal (f : Word → Instr) (arg : Word) (c : Cause) : decodeW f arg ≠ .illegal c := nofun

/-- A byte operand, zero-extended, decodes to its command (R62). -/
theorem decodeB_setWidth (f : Byte → Instr) (b : Byte) : decodeB f (b.setWidth 32) = .cmd (f b) := by
  rw [decodeB, if_pos (reservedOfB_setWidth b), byteField_setWidth]

/-- The assigned OPs, those of format N first, then B, then W (R61, R64). -/
theorem opcode_assigned_cases {op : Byte} (h : op.toNat ≤ 8) :
    (op = 0#8 ∨ op = 1#8 ∨ op = 3#8 ∨ op = 4#8 ∨ op = 7#8 ∨ op = 8#8) ∨ (op = 2#8 ∨ op = 6#8) ∨ op = 5#8 := by
  bv_omega

/-- A reserved OP is illegal with cause 1 whatever ARG holds (R65). -/
theorem decodeFields_reserved {op : Byte} (h : 9 ≤ op.toNat) (arg : Word) :
    decodeFields op arg = .illegal .reservedOpcode := by
  unfold decodeFields
  split
  case h_10 => rfl
  all_goals omega

/-- The format of every OP: N, B, W or reserved (R61, R64, R65). -/
theorem decodeFields_format (op : Byte) :
    (op.toNat ≤ 8 ∧ op ≠ 2#8 ∧ op ≠ 5#8 ∧ op ≠ 6#8 ∧ ∃ i, ∀ arg, decodeFields op arg = decodeN i arg) ∨
    ((op = 2#8 ∨ op = 6#8) ∧ ∃ f, ∀ arg, decodeFields op arg = decodeB f arg) ∨
    (op = 5#8 ∧ ∃ f, ∀ arg, decodeFields op arg = decodeW f arg) ∨
    (9 ≤ op.toNat ∧ ∀ arg, decodeFields op arg = .illegal .reservedOpcode) := by
  obtain h | h := Nat.lt_or_ge 8 op.toNat
  · exact .inr (.inr (.inr ⟨h, decodeFields_reserved h⟩))
  · obtain hN | hB | rfl := opcode_assigned_cases h
    · left
      obtain rfl | rfl | rfl | rfl | rfl | rfl := hN <;>
        exact ⟨h, by decide, by decide, by decide, _, fun _ => rfl⟩
    · right; left
      obtain rfl | rfl := hB <;> exact ⟨by decide, _, fun _ => rfl⟩
    · exact .inr (.inr (.inl ⟨rfl, _, fun _ => rfl⟩))

/-- Settles O4: by the format of OP, only a reserved OP has cause 1, and only formats N and B have cause 2. -/
theorem reservedEncodingsAreIllegal : Obligations.ReservedEncodingsAreIllegal := by
  intro op arg
  rw [decode_commandWord]
  obtain ⟨hop, h2, h5, h6, i, hd⟩ | ⟨hop, f, hd⟩ | ⟨rfl, f, hd⟩ | ⟨hop, hd⟩ := decodeFields_format op <;> rw [hd]
  · have hn : ¬ (op = 2#8 ∨ op = 6#8) := not_or.2 ⟨h2, h6⟩
    rw [if_neg hn, decodeN_eq_reservedArgBits_iff]
    exact ⟨iff_of_false (decodeN_ne_reservedOpcode i arg) (by omega), ⟨fun h => ⟨hop, h5, h⟩, fun ⟨_, _, h⟩ => h⟩⟩
  · obtain ⟨hle, h5⟩ : op.toNat ≤ 8 ∧ op ≠ 5#8 := by obtain rfl | rfl := hop <;> decide
    rw [if_pos hop, decodeB_eq_reservedArgBits_iff]
    exact ⟨iff_of_false (decodeB_ne_reservedOpcode f arg) (by omega),
      ⟨fun h => ⟨hle, h5, h⟩, fun ⟨_, _, h⟩ => h⟩⟩
  · exact ⟨iff_of_false (decodeW_ne_illegal f arg _) (by decide),
      iff_of_false (decodeW_ne_illegal f arg _) fun ⟨_, h5, _⟩ => h5 rfl⟩
  · exact ⟨iff_of_true rfl hop, iff_of_false nofun fun ⟨hle, _⟩ => by omega⟩

end Sys2Proof
end

section
/-! ENGINE's turn in its cases: what the table hold is, when the turn leaves the state, and what it executes
(30_encoding.md R70). -/

namespace Sys2Proof.Machine

/-- The commands that read TABLE are UPDB and TBLRD (70_reset_and_hazards.md R170). -/
theorem needsTable_iff (d : Decoded) :
    needsTable d = true ↔ (∃ b, d = .cmd (.updb b)) ∨ ∃ k, d = .cmd (.tblrd k) := by
  unfold needsTable
  split <;> simp_all

/-- The table hold: a command that reads TABLE, while TG_I is not 256 (70_reset_and_hazards.md R170). -/
theorem heldByTable_iff (w : CmdWord) (s : State) :
    heldByTable w s = true ↔
      ((∃ b, decode w = .cmd (.updb b)) ∨ ∃ k, decode w = .cmd (.tblrd k)) ∧ s.tgI ≠ 256#9 := by
  rw [heldByTable, Bool.and_eq_true, needsTable_iff, tableReady, Bool.not_eq_true', beq_eq_false_iff_ne]

theorem executeWord_illegal {w : CmdWord} {c : Cause} (h : decode w = .illegal c) (s : State) :
    executeWord w s = .next (raiseIllegal c (opField w) s) := by
  rw [executeWord, h]

theorem executeWord_cmd {w : CmdWord} {i : Instr} (h : decode w = .cmd i) (s : State) : executeWord w s = exec i s := by
  rw [executeWord, h]

/-- ENGINE's step is enabled only with a command at the head of CMDQ, room in RSPQ and no hold: else the state stays. -/
theorem engineStep_of_disabled {p : Config.Params} {s : State}
    (h : ∀ w rest, s.cmdq = w :: rest → p.rspDepth ≤ s.rspq.length ∨ heldByTable w s = true) :
    engineStep p s = .next s := by
  obtain ⟨hr, -⟩ | ⟨w, rest, hq, hroom, hheld, -⟩ := engineStep_cases (rfl : engineStep p s = _)
  · exact hr
  · obtain hfull | hheld' := h w rest hq
    · exact absurd ((hasRoom_iff _ _).1 hroom) (Nat.not_lt.2 hfull)
    · rw [hheld] at hheld'
      cases hheld'

/-- ENGINE's enabled step removes the oldest command and executes it. -/
theorem engineStep_of_enabled {p : Config.Params} {s : State} {w : CmdWord} {rest : List CmdWord}
    (hq : s.cmdq = w :: rest) (hroom : s.rspq.length < p.rspDepth) (hheld : heldByTable w s = false) :
    engineStep p s = executeWord w { s with cmdq := rest } := by
  have hroom' : hasRoom p.rspBeyondOne s.rspq = true := (hasRoom_iff _ _).2 hroom
  simp [engineStep, hq, hroom', hheld]

/-- Settles O9: the disabled turns leave the state, the enabled one executes the head by what it decodes to. -/
theorem engineStepIsTheOneOfTheSpec : Obligations.EngineStepIsTheOneOfTheSpec := by
  intro p s
  refine ⟨fun hnil => engineStep_of_disabled fun w rest hq => ?_, fun w rest hq => ⟨fun hfull => ?_, fun hreads htg => ?_,
    fun hroom hfree => ?_⟩⟩
  · rw [hnil] at hq
    cases hq
  · exact engineStep_of_disabled fun _ _ _ => .inl hfull
  · refine engineStep_of_disabled fun w' rest' hq' => .inr ?_
    obtain ⟨rfl, -⟩ := List.cons.inj (hq.symm.trans hq')
    exact (heldByTable_iff _ s).2 ⟨hreads, htg⟩
  · have hheld : heldByTable w s = false := by
      rw [Bool.eq_false_iff, Ne, heldByTable_iff]
      rintro ⟨⟨b, hb⟩ | ⟨k, hk⟩, htg⟩
      · exact hfree.elim htg fun ⟨hupdb, _⟩ => hupdb b hb
      · exact hfree.elim htg fun ⟨_, htblrd⟩ => htblrd k hk
    rw [engineStep_of_enabled hq hroom hheld]
    exact ⟨fun c hd => executeWord_illegal hd _, fun i hd => executeWord_cmd hd _⟩

end Sys2Proof.Machine
end

section
/-! The assembler: when it answers, and that its words but those written out are words of commands (30_encoding.md R72,
R74). -/

namespace Sys2Proof

/-- The word of a command decodes to it (R69, R74). -/
theorem decode_encode (i : Instr) : decode (encode i) = .cmd i := by
  rw [encode, decode_commandWord]
  cases i
  case updb b => exact decodeB_setWidth .updb b
  case tblrd idx => exact decodeB_setWidth .tblrd idx
  all_goals rfl

/-- A byte operand in range, zero-extended, is the same number (R72). -/
theorem setWidth_ofNat_byte {n : Nat} (h : n < 256) : (BitVec.ofNat 8 n).setWidth 32 = BitVec.ofNat 32 n := by
  bv_omega

namespace Asm

theorem assemble_eq_none_iff (t : Stmt) : assemble t = none ↔ t.wf = false := by
  cases h : t.wf <;> simp [assemble, h]

theorem assemble_of_wf {t : Stmt} (h : t.wf = true) : assemble t = some (expand t) := if_pos h

theorem expand_of_assemble {t : Stmt} {ws : List CmdWord} (h : assemble t = some ws) : expand t = ws := by
  cases hwf : t.wf
  · rw [(assemble_eq_none_iff t).2 hwf] at h
    cases h
  · exact Option.some.inj ((assemble_of_wf hwf).symm.trans h)

/-- Every word of a statement but one written out is the word of a command (R74). -/
theorem mem_expand_encode {t : Stmt} (ht : ∀ n, t ≠ .word40 n) {w : CmdWord} (hw : w ∈ expand t) :
    ∃ i, encode i = w := by
  cases t
  case word40 n => exact absurd rfl (ht n)
  case update s | add s | calculate s =>
    obtain ⟨i, -, hi⟩ := List.mem_map.1 hw
    exact ⟨i, hi⟩
  all_goals exact ⟨_, (List.mem_singleton.1 hw).symm⟩

/-- A word operand in range is the ARG of ACCWR (R72, R74). -/
theorem assemble_accwr {n : Nat} (h : n < 4294967296) :
    assemble (.accwr n) = some [commandWord 0x05#8 (BitVec.ofNat 32 n)] :=
  assemble_of_wf (decide_eq_true h)

/-- A byte operand in range is the ARG of UPDB (R72, R74). -/
theorem assemble_updb {n : Nat} (h : n < 256) : assemble (.updb n) = some [commandWord 0x02#8 (BitVec.ofNat 32 n)] := by
  rw [← setWidth_ofNat_byte h]
  exact assemble_of_wf (decide_eq_true h)

/-- A byte operand in range is the ARG of TBLRD (R72, R74). -/
theorem assemble_tblrd {n : Nat} (h : n < 256) :
    assemble (.tblrd n) = some [commandWord 0x06#8 (BitVec.ofNat 32 n)] := by
  rw [← setWidth_ofNat_byte h]
  exact assemble_of_wf (decide_eq_true h)

/-- Settles O55: no illegal word, as every word but one written out is the encoding of a command. -/
theorem assemblerMakesOnlyLegalWords : Obligations.AssemblerMakesOnlyLegalWords := by
  refine ⟨assemble_eq_none_iff, fun t ws ht h w hw => ?_, rfl, rfl, rfl, rfl, rfl, rfl, fun n => assemble_accwr,
    fun n h => ⟨assemble_updb h, assemble_tblrd h⟩⟩
  rw [← expand_of_assemble h] at hw
  obtain ⟨i, rfl⟩ := mem_expand_encode ht hw
  exact ⟨i, decode_encode i⟩

end Asm

end Sys2Proof
end

section
/-! TGEN fills TABLE in index order: one step, and any number of them from any TG_I (40_table_generator.md R83). -/

namespace Sys2Proof.Machine

/-- While TGEN has a step, TG_I itself is the index it writes. -/
theorem tgenIndex_toNat {s : State} (h : s.tgI.toNat < 256) : (tgenIndex s).toNat = s.tgI.toNat := by
  rw [tgenIndex, BitVec.extractLsb'_toNat, Nat.shiftRight_zero]
  exact Nat.mod_eq_of_lt h

theorem tgenStep_enabled {s : State} (h : s.tgI.toNat < 256) : tgenStep s = tgenWrite s := by
  obtain ⟨-, hs⟩ | ⟨h256, -⟩ := tgenStep_cases s
  · exact hs
  · omega

theorem tgenStep_disabled {s : State} (h : 256 ≤ s.tgI.toNat) : tgenStep s = s := by
  obtain ⟨hlt, -⟩ | ⟨-, hs⟩ := tgenStep_cases s
  · omega
  · exact hs

theorem tgenStep_tgI_toNat {s : State} (h : s.tgI.toNat < 256) : (tgenStep s).tgI.toNat = s.tgI.toNat + 1 := by
  rw [tgenStep_enabled h, tgenWrite_tgI]
  bv_omega

/-- TGEN's step writes the generated value at index TG_I and no other entry. -/
theorem tableEntry_tgenStep_enabled {s : State} (h : s.tgI.toNat < 256) (i : Byte) :
    tableEntry (tgenStep s) i = if i.toNat = s.tgI.toNat then some (genEntry i) else tableEntry s i := by
  have hw : tableEntry (tgenWrite s) i = if i = tgenIndex s then some (genEntry (tgenIndex s)) else tableEntry s i :=
    tableEntry_tableWrite _ _ _ _
  have hi : i.toNat = s.tgI.toNat ↔ i = tgenIndex s := by rw [← tgenIndex_toNat h, BitVec.toNat_inj]
  rw [tgenStep_enabled h, hw]
  by_cases heq : i = tgenIndex s
  · rw [if_pos heq, if_pos (hi.2 heq), heq]
  · rw [if_neg heq, if_neg (mt hi.1 heq)]

theorem tgenTurns_tgI_toNat {k : Nat} {s : State} (h : s.tgI.toNat + k ≤ 256) :
    (tgenTurns k s).tgI.toNat = s.tgI.toNat + k := by
  induction k generalizing s with
  | zero => rfl
  | succ k ih =>
    have hstep := tgenStep_tgI_toNat (s := s) (by omega)
    rw [tgenTurns, ih (by omega), hstep]
    omega

/-- k steps of TGEN write the k entries from TG_I on and no other. -/
theorem tableEntry_tgenTurns_enabled {k : Nat} {s : State} (h : s.tgI.toNat + k ≤ 256) (i : Byte) :
    tableEntry (tgenTurns k s) i =
      if s.tgI.toNat ≤ i.toNat ∧ i.toNat < s.tgI.toNat + k then some (genEntry i) else tableEntry s i := by
  induction k generalizing s with
  | zero => exact (if_neg (by omega)).symm
  | succ k ih =>
    have hlt : s.tgI.toNat < 256 := by omega
    have hstep := tgenStep_tgI_toNat hlt
    rw [tgenTurns, ih (by omega), hstep, tableEntry_tgenStep_enabled hlt]
    by_cases hi : i.toNat = s.tgI.toNat
    · rw [if_neg (by omega), if_pos hi, if_pos (by omega)]
    · rw [if_neg hi]
      exact if_congr (by omega) rfl rfl

/-- Settles O28: one step writes at index TG_I; k steps from reset, where TG_I = 0 and nothing is written, write the
entries below k. -/
theorem tgenFillsTheTableInOrder : Obligations.TgenFillsTheTableInOrder := by
  refine ⟨fun s h => ⟨tgenStep_tgI_toNat h, tableEntry_tgenStep_enabled h, ?_⟩, fun s => tgenStep_disabled,
    fun e k hk => ?_⟩
  · rw [tgenStep_enabled h]
    rfl
  · have h : ({ State.reset with env := e } : State).tgI.toNat + k ≤ 256 := by simpa using hk
    refine ⟨by simpa using tgenTurns_tgI_toNat h, fun i => ?_⟩
    simpa [tableEntry, Memory.entry] using tableEntry_tgenTurns_enabled h i

end Sys2Proof.Machine
end

section
/-! TBLRD: its words, the words rejected for their reserved bits, and how long an entry lasts that it has read
(40_table_generator.md R88). -/

namespace Sys2Proof.Machine

/-- A word with reserved bits set in ARG is answered as R143 has it (30_encoding.md R66). -/
theorem rejectedForItsReservedBits_of_decode {w : CmdWord} (h : decode w = .illegal .reservedArgBits) :
    RejectedForItsReservedBits w :=
  ⟨h, fun s => (executeWord_illegal h s).trans (congrArg _ (raiseIllegal_eq _ _ s))⟩

/-- An illegal word is never held (60_exceptions.md R146). -/
theorem heldByTable_of_illegal {w : CmdWord} {c : Cause} (h : decode w = .illegal c) (s : State) :
    heldByTable w s = false := by
  simp [heldByTable, h, needsTable]

theorem decode_tblrdWord (idx : Byte) : decode (commandWord 0x06#8 (idx.setWidth 32)) = .cmd (.tblrd idx) :=
  decode_encode (.tblrd idx)

theorem decode_tblrdWord_reserved {arg : Word} (h : reservedOfB arg ≠ 0#24) :
    decode (commandWord 0x06#8 arg) = .illegal .reservedArgBits := by
  rw [decode_commandWord]
  exact (decodeB_eq_reservedArgBits_iff .tblrd arg).2 h

/-- ENGINE never writes TABLE nor TG_I (00_scope.md R10). -/
theorem engineStep_keeps_table {p : Config.Params} {s t : State} (h : engineStep p s = .next t) :
    t.table = s.table ∧ t.tgI = s.tgI := by
  obtain ⟨hr, -⟩ | ⟨w, rest, -, -, -, hr⟩ := engineStep_cases h
  · cases hr
    exact ⟨rfl, rfl⟩
  · obtain ⟨c, -, hx⟩ | ⟨i, -, hx⟩ := executeWord_cases hr.symm
    · cases hx
      rw [raiseIllegal_eq]
      exact ⟨rfl, rfl⟩
    · obtain ⟨htable, htgI, -⟩ := exec_effect hx.symm
      exact ⟨htable, htgI⟩

/-- HOST writes TABLE and TG_I by asserting reset only (70_reset_and_hazards.md R178). -/
theorem hostStep_keeps_table (p : Config.Params) {s : State} (h : hostAction s ≠ .reset) :
    (hostStep p s).table = s.table ∧ (hostStep p s).tgI = s.tgI := by
  obtain ⟨-, hr⟩ | ⟨w, -, -, hr⟩ | ⟨x, rest, -, -, hr⟩ | ⟨hreset, -⟩ := hostStep_cases p s
  case inr.inr.inr => exact absurd hreset h
  all_goals
    rw [hr]
    exact ⟨rfl, rfl⟩

/-- Every step but reset leaves TABLE and TG_I, or is TGEN's. -/
theorem stepWith_table_cases {p : Config.Params} {s t : State} (h : stepWith p s = .next t)
    (hreset : ¬ (nextAgent s = .host ∧ hostAction (useTurn s) = .reset)) :
    (t.table = s.table ∧ t.tgI = s.tgI) ∨ t = tgenStep (useTurn s) := by
  obtain ⟨hagent, hr⟩ | ⟨-, hr⟩ | ⟨-, hr⟩ := stepWith_cases h
  · cases hr
    exact .inl (hostStep_keeps_table p fun ha => hreset ⟨hagent, ha⟩)
  · exact .inl (engineStep_keeps_table (s := useTurn s) hr.symm)
  · cases hr
    exact .inr rfl

/-- A generated entry lasts until reset (40_table_generator.md R88). -/
theorem tableEntry_stepWith {p : Config.Params} {s t : State} {k : Byte} (hk : tableEntry s k = some (genEntry k))
    (h : stepWith p s = .next t) (hreset : ¬ (nextAgent s = .host ∧ hostAction (useTurn s) = .reset)) :
    tableEntry t k = some (genEntry k) := by
  obtain ⟨htable, -⟩ | rfl := stepWith_table_cases h hreset
  · rwa [tableEntry, htable]
  · exact tableEntry_tgenStep (s := useTurn s) hk

/-- The completed table holds the entries of R88's example. -/
theorem Ready.example_entries {s : State} (h : Ready s) :
    tableEntry s 0x00#8 = some 0x00000000#32 ∧ tableEntry s 0x80#8 = some 0xEDB88320#32 ∧
      tableEntry s 0x01#8 = some 0x77073096#32 := by
  obtain ⟨-, hentry⟩ := h
  rw [hentry, hentry, hentry]
  decide

/-- Settles O16: the words by format B, the hold by TG_I; a written entry is the generated one, which no step but reset
changes. -/
theorem tblrdReadsATableEntry : Obligations.TblrdReadsATableEntry := by
  refine ⟨decode_tblrdWord, fun arg h => rejectedForItsReservedBits_of_decode (decode_tblrdWord_reserved h),
    fun idx s => ?_, fun arg s h => heldByTable_of_illegal (decode_tblrdWord_reserved h) s,
    fun idx s v => exec_tblrd_some, fun s => Ready.example_entries, fun p s t idx v hinv hv hstep hreset => ?_⟩
  · rw [heldByTable_iff]
    exact and_iff_right (.inr ⟨idx, decode_tblrdWord idx⟩)
  · obtain rfl := hinv.table.entry_eq_genEntry hv
    exact tableEntry_stepWith hv hstep hreset

end Sys2Proof.Machine
end

section
/-! The words of the calculator core's commands, and the state each command leaves (41_calculator_core.md R100, R102 to
R107). -/

namespace Sys2Proof.Machine

/-- A command that does not read TABLE is never held (70_reset_and_hazards.md R170). -/
theorem heldByTable_of_cmd {w : CmdWord} {i : Instr} (hd : decode w = .cmd i) (hi : needsTable (.cmd i) = false)
    (s : State) : heldByTable w s = false := by
  rw [heldByTable, hd, hi, Bool.false_and]

/-- The words of an OP of format N that reads no TABLE: the one with ARG 0 is the command, every other is rejected, and
none is held (30_encoding.md R61, R66). -/
theorem formatN_words {op : Byte} {i : Instr} (hop : ∀ arg, decodeFields op arg = decodeN i arg)
    (hi : needsTable (.cmd i) = false) :
    decode (commandWord op 0#32) = .cmd i ∧
      (∀ arg : Word, arg ≠ 0#32 → RejectedForItsReservedBits (commandWord op arg)) ∧
      ∀ s : State, heldByTable (commandWord op 0#32) s = false := by
  have hd : decode (commandWord op 0#32) = .cmd i := by rw [decode_commandWord, hop, decodeN, if_pos rfl]
  refine ⟨hd, fun arg harg => rejectedForItsReservedBits_of_decode ?_, heldByTable_of_cmd hd hi⟩
  rw [decode_commandWord, hop, decodeN_eq_reservedArgBits_iff]
  exact harg

/-- Settles O11: SEED's words by format N, its meaning by definition. -/
theorem seedStartsACalculation : Obligations.SeedStartsACalculation := by
  obtain ⟨hd, hrejected, hheld⟩ := formatN_words (op := 0x01#8) (i := .seed) (fun _ => rfl) rfl
  exact ⟨hd, hrejected, hheld, fun _ => rfl⟩

/-- Settles O13: FIN's words by format N, its meaning by definition. -/
theorem finReadsTheChecksum : Obligations.FinReadsTheChecksum := by
  obtain ⟨hd, hrejected, hheld⟩ := formatN_words (op := 0x03#8) (i := .fin) (fun _ => rfl) rfl
  exact ⟨hd, hrejected, hheld, fun _ => rfl⟩

/-- Settles O14: ACCRD's words by format N, its meaning by definition. -/
theorem accrdReadsTheAccumulator : Obligations.AccrdReadsTheAccumulator := by
  obtain ⟨hd, hrejected, hheld⟩ := formatN_words (op := 0x04#8) (i := .accrd) (fun _ => rfl) rfl
  exact ⟨hd, hrejected, hheld, fun _ => rfl⟩

/-- Settles O15: every word with ACCWR's OP is the encoding of an ACCWR, which reads no TABLE. -/
theorem accwrLoadsTheAccumulator : Obligations.AccwrLoadsTheAccumulator :=
  ⟨fun v => decode_encode (.accwr v), fun v => heldByTable_of_cmd (decode_encode (.accwr v)) rfl, fun _ _ => rfl⟩

theorem decode_updbWord (b : Byte) : decode (commandWord 0x02#8 (b.setWidth 32)) = .cmd (.updb b) :=
  decode_encode (.updb b)

theorem decode_updbWord_reserved {arg : Word} (h : reservedOfB arg ≠ 0#24) :
    decode (commandWord 0x02#8 arg) = .illegal .reservedArgBits := by
  rw [decode_commandWord]
  exact (decodeB_eq_reservedArgBits_iff .updb arg).2 h

/-- UPDB where the entry it reads is written (41_calculator_core.md R103). -/
theorem exec_updb_some {s : State} {b : Byte} {v : Word} (h : tableEntry s (updateIndex s.acc b) = some v) :
    exec (.updb b) s = .next (respond false 0x00000000#32 (setAcc (combine s.acc v) s)) :=
  withTableRead_some _ h

/-- Settles O12: the words by format B, the hold by TG_I, the effect by the entry read. -/
theorem updbCombinesOneByte : Obligations.UpdbCombinesOneByte := by
  refine ⟨decode_updbWord, fun arg h => rejectedForItsReservedBits_of_decode (decode_updbWord_reserved h),
    fun b s => ?_, fun arg s h => heldByTable_of_illegal (decode_updbWord_reserved h) s, fun b s v => exec_updb_some⟩
  rw [heldByTable_iff]
  exact and_iff_right (.inl ⟨b, decode_updbWord b⟩)

/-- The index of an update is the low byte of ACC combined with the byte (41_calculator_core.md R100). -/
theorem updateIndex_eq (a : Word) (b : Byte) : updateIndex a b = a.extractLsb' 0 8 ^^^ b := by
  have hb : (zextByte b).extractLsb' 0 8 = b := byteField_setWidth b
  rw [updateIndex, lowByte, BitVec.extractLsb'_xor, hb]

/-- The shifted accumulator has bits [31:24] zero (41_calculator_core.md R100). -/
theorem shiftRight_byte_high (a : Word) : (a >>> 8).extractLsb' 24 8 = 0#8 := by
  refine extractLsb'_eq_of_bits fun k _ => ?_
  rw [BitVec.getLsbD_ushiftRight, BitVec.getLsbD_zero]
  exact BitVec.getLsbD_of_ge _ _ (by omega)

/-- Settles O19: upd1's index and shift written out; UPDB on a ready core is upd1. -/
theorem readyUpdbIsTheUpdateFunction : Obligations.ReadyUpdbIsTheUpdateFunction := by
  refine ⟨fun a b => ⟨?_, shiftRight_byte_high a⟩, fun s b h => exec_updb_ready h b⟩
  rw [upd1, updateIndex_eq, combine]

end Sys2Proof.Machine
end

section
/-! Words executed one after the other: what they answer does not depend on the responses before them, so a FIN put between
two runs changes neither (41_calculator_core.md R105). -/

namespace Sys2Proof.Machine

theorem executeAll_append (ws us : List CmdWord) (s : State) :
    executeAll (ws ++ us) s = andThen (executeAll ws s) (executeAll us) := by
  induction ws generalizing s with
  | nil => rfl
  | cons w ws ih =>
    rw [List.cons_append, executeAll, executeAll]
    cases executeWord w s with
    | next m => exact ih m
    | fault e => rfl
    | refused e => rfl

/-- From s and whatever RSPQ holds, `f` leaves t but for RSPQ, to which it appends the responses rs. -/
def Appends (f : State → Result) (s t : State) (rs : List RspWord) : Prop :=
  ∀ q : List RspWord, f { s with rspq := q } = .next { t with rspq := q ++ rs }

theorem Appends.rspq {f : State → Result} {s t : State} {rs : List RspWord} (h : Appends f s t rs)
    (ht : f s = .next t) : t.rspq = s.rspq ++ rs :=
  congrArg (·.rspq) (Host.Outcome.next.inj (ht.symm.trans (h s.rspq)))

theorem exec_appends {i : Instr} {s t : State} (h : exec i s = .next t) : ∃ rs, Appends (exec i) s t rs := by
  cases i
  case updb | tblrd =>
    obtain ⟨v, hv, h⟩ := withTableRead_next h
    cases h
    exact ⟨_, fun _ => withTableRead_some _ hv⟩
  all_goals cases h
  case fin => exact ⟨[responseWord false (finalize s.acc)], fun _ => rfl⟩
  case accrd => exact ⟨[responseWord false s.acc], fun _ => rfl⟩
  case stat => exact ⟨[responseWord false (statusWord s)], fun _ => rfl⟩
  all_goals exact ⟨[responseWord false 0x00000000#32], fun _ => rfl⟩

theorem executeWord_appends {w : CmdWord} {s t : State} (h : executeWord w s = .next t) :
    ∃ rs, Appends (executeWord w) s t rs := by
  obtain ⟨c, hd, hr⟩ | ⟨i, hd, hr⟩ := executeWord_cases h
  · cases hr
    exact ⟨_, fun q => by rw [executeWord_illegal hd, raiseIllegal_eq, raiseIllegal_eq]⟩
  · obtain ⟨rs, hrs⟩ := exec_appends hr.symm
    exact ⟨rs, fun q => (executeWord_cmd hd _).trans (hrs q)⟩

theorem executeAll_appends {ws : List CmdWord} {s t : State} (h : executeAll ws s = .next t) :
    ∃ rs, Appends (executeAll ws) s t rs := by
  induction ws generalizing s with
  | nil =>
    cases h
    exact ⟨[], fun q => by rw [List.append_nil, executeAll]⟩
  | cons w ws ih =>
    obtain ⟨m, hm, h⟩ := andThen_next h
    obtain ⟨rs, hrs⟩ := executeWord_appends hm
    obtain ⟨rs', hrs'⟩ := ih h
    refine ⟨rs ++ rs', fun q => ?_⟩
    rw [executeAll, hrs q, andThen, hrs' (q ++ rs), List.append_assoc]

/-- The words after that of a command go on from what its meaning leaves (30_encoding.md R70, R74). -/
theorem executeAll_encode_cons {i : Instr} {s m : State} (h : exec i s = .next m) (ws : List CmdWord) :
    executeAll (encode i :: ws) s = executeAll ws m := by
  rw [executeAll, executeWord_cmd (decode_encode i), h, andThen]

/-- A FIN between two runs adds its response and changes nothing else (41_calculator_core.md R105). -/
theorem executeAll_fin_between {s m u : State} {ws₁ ws₂ : List CmdWord} (h₁ : executeAll ws₁ s = .next m)
    (h₂ : executeAll ws₂ m = .next u) :
    ∃ t rs, executeAll (ws₁ ++ encode .fin :: ws₂) s = .next t ∧ commandState t = commandState u ∧
      u.rspq = m.rspq ++ rs ∧ t.rspq = m.rspq ++ responseWord false (m.acc ^^^ 0xFFFFFFFF#32) :: rs := by
  obtain ⟨rs, hrs⟩ := executeAll_appends h₂
  refine ⟨{ u with rspq := m.rspq ++ responseWord false (finalize m.acc) :: rs }, rs, ?_, rfl, hrs.rspq h₂, rfl⟩
  have hfin : exec .fin m = .next { m with rspq := m.rspq ++ [responseWord false (finalize m.acc)] } := rfl
  rw [executeAll_append, h₁, andThen, executeAll_encode_cons hfin, hrs, List.append_assoc, List.singleton_append]

end Sys2Proof.Machine
end

section
/-! A ready core: any words run on it as the sequential reference has it, and those of CALC give the checksum
(41_calculator_core.md R105, R110; 70_reset_and_hazards.md R179). -/

namespace Sys2Proof.Machine

theorem update_eq_foldl (a : Word) (bs : List Byte) : update a bs = bs.foldl upd1 a := by
  induction bs generalizing a with
  | nil => rfl
  | cons b bs ih => exact ih (upd1 a b)

theorem update_append (a : Word) (bs cs : List Byte) : update a (bs ++ cs) = update (update a bs) cs := by
  simp only [update_eq_foldl, List.foldl_append]

/-- A word that does not load ACC updates it by the bytes it combines (41_calculator_core.md R108). -/
theorem Ref.update_next {w : CmdWord} (h : loadsAcc w = false) (r : Ref) (ws : List CmdWord) :
    update (r.next w).acc (updbBytes ws) = update r.acc (updbBytes (w :: ws)) := by
  cases hd : decode w with
  | illegal c =>
    simp only [Ref.next, updbBytes, hd]
    split <;> rfl
  | cmd i =>
    cases i
    case seed | accwr => simp [loadsAcc, hd] at h
    all_goals simp only [Ref.next, updbBytes, hd, update]

/-- Words that do not load ACC update it by the bytes they combine, in order (41_calculator_core.md R108). -/
theorem Ref.after_acc {ws : List CmdWord} (h : ∀ w ∈ ws, loadsAcc w = false) (r : Ref) :
    (r.after ws).acc = update r.acc (updbBytes ws) := by
  induction ws generalizing r with
  | nil => rfl
  | cons w ws ih =>
    obtain ⟨hw, hws⟩ := List.forall_mem_cons.1 h
    rw [Ref.after, ih hws, Ref.update_next hw]

theorem Ref.answersAll_length {r : Ref} {ws : List CmdWord} {xs : List RspWord} (h : r.answersAll ws xs) :
    xs.length = ws.length := by
  induction ws generalizing r xs with
  | nil =>
    cases xs with
    | nil => rfl
    | cons x xs => exact h.elim
  | cons w ws ih =>
    cases xs with
    | nil => exact h.elim
    | cons x xs => exact congrArg Nat.succ (ih h.2)

/-- A core stays ready while TABLE and TG_I stay. -/
theorem Ready.congr {s t : State} (h : Ready s) (htable : t.table = s.table) (htgI : t.tgI = s.tgI) : Ready t := by
  obtain ⟨h256, hentry⟩ := h
  exact ⟨htgI.trans h256, fun i => by rw [tableEntry, htable]; exact hentry i⟩

/-- No executed word, legal or illegal, writes TABLE or TG_I. -/
theorem executeWord_keeps_table {w : CmdWord} {s t : State} (h : executeWord w s = .next t) :
    t.table = s.table ∧ t.tgI = s.tgI := by
  obtain ⟨c, -, hr⟩ | ⟨i, -, hr⟩ := executeWord_cases h
  · cases hr
    rw [raiseIllegal_eq]
    exact ⟨rfl, rfl⟩
  · obtain ⟨htable, htgI, -⟩ := exec_effect hr.symm
    exact ⟨htable, htgI⟩

/-- A ready core executes any word, as the reference has it. -/
theorem executeWord_ready {s : State} (h : Ready s) (w : CmdWord) :
    ∃ t, executeWord w s = .next t ∧ ExecutesAsReference w s t := by
  cases hd : decode w with
  | illegal c => exact ⟨_, executeWord_illegal hd s, raiseIllegal_asReference hd s⟩
  | cmd i =>
    obtain ⟨t, ht⟩ := exec_completes (i := i) fun k => ⟨_, h.2 k⟩
    have hcount : s.tgI.toNat ≤ 256 := by rw [h.1]; decide
    exact ⟨t, (executeWord_cmd hd s).trans ht, exec_asReference hd ht hcount fun _ => h⟩

/-- A ready core executes any words, as the reference has it: the registers, and the responses one for one. -/
theorem executeAll_ready {s : State} (h : Ready s) (ws : List CmdWord) :
    ∃ t xs, executeAll ws s = .next t ∧ Ready t ∧ commandState t = (commandState s).after ws ∧
      t.rspq = s.rspq ++ xs ∧ (commandState s).answersAll ws xs := by
  induction ws generalizing s with
  | nil => exact ⟨s, [], rfl, h, rfl, (List.append_nil _).symm, trivial⟩
  | cons w ws ih =>
    obtain ⟨m, hm, -, -, hregs, x, hx, hanswer⟩ := executeWord_ready h w
    obtain ⟨htable, htgI⟩ := executeWord_keeps_table hm
    obtain ⟨t, xs, ht, hready, hregs', hxs, hanswers⟩ := ih (h.congr htable htgI)
    rw [hregs] at hregs' hanswers
    refine ⟨t, x :: xs, ?_, hready, hregs', ?_, hanswer, hanswers⟩
    · rw [executeAll, hm, andThen, ht]
    · rw [hxs, hx, List.append_assoc, List.singleton_append]

/-- Settles O38: a FIN between two runs only adds its response; on a ready core the first run from SEED leaves in ACC the
update by its bytes, and the second goes on from there. -/
theorem finIsAPeek : Obligations.FinIsAPeek := by
  refine ⟨fun s ws₁ ws₂ hs h₁ h₂ => ?_, fun s m u ws₁ ws₂ => executeAll_fin_between⟩
  obtain ⟨m, before, hm, hmready, hmregs, hmrspq, hanswers⟩ := executeAll_ready hs (encode .seed :: ws₁)
  obtain ⟨u, -, hu, -, huregs, -⟩ := executeAll_ready hmready ws₂
  obtain ⟨t, rs, ht, htregs, -, htrspq⟩ := executeAll_fin_between hm hu
  have hmacc : m.acc = update 0xFFFFFFFF#32 (updbBytes ws₁) := by
    have h := congrArg Ref.acc hmregs
    rw [Ref.after, Ref.after_acc h₁, Ref.next, decode_encode] at h
    exact h
  have htacc : t.acc = update m.acc (updbBytes ws₂) :=
    (congrArg Ref.acc (htregs.trans huregs)).trans (Ref.after_acc h₂ _)
  refine ⟨t, before, rs, ht, ?_, Ref.answersAll_length hanswers, ?_⟩
  · rw [htrspq, hmrspq, hmacc]
    rfl
  · rw [htacc, hmacc, update_append]

/-- One UPDB a byte on a ready core: each is answered (0, 0), and ACC is the update by the bytes
(41_calculator_core.md R101). -/
theorem executeAll_updbWords {s : State} (h : Ready s) (bs : List Byte) :
    executeAll (updbWords bs) s = .next
      { s with
        acc := update s.acc bs
        rspq := s.rspq ++ List.replicate bs.length (responseWord false 0x00000000#32) } := by
  induction bs generalizing s with
  | nil => simp [updbWords, executeAll, update]
  | cons b bs ih =>
    have hready : Ready (respond false 0x00000000#32 (setAcc (upd1 s.acc b) s)) := h.congr rfl rfl
    rw [updbWords, List.map_cons, executeAll_encode_cons (exec_updb_ready h b), ← updbWords, ih hready, respond_rspq,
      List.append_assoc, List.singleton_append]
    rfl

/-- The words of CALC: SEED, one UPDB for each byte of the segments joined, FIN (30_encoding.md R76). -/
theorem expand_calculate (segments : List (List Nat)) :
    Asm.expand (.calculate segments) =
      encode .seed :: updbWords (segments.flatten.map (BitVec.ofNat 8)) ++ [encode .fin] := by
  simp [Asm.expand, Asm.calcCommands, Asm.updateCommands, updbWords, List.flatMap_def, Function.comp_def]

/-- Settles O37: FIN after SEED and the UPDBs of the segments joined, on a ready core; nothing follows it. -/
theorem calcReturnsTheChecksum : Obligations.CalcReturnsTheChecksum := by
  refine ⟨fun s segments ws hs hws => ?_, by decide, by decide⟩
  rw [← Asm.expand_of_assemble hws, expand_calculate]
  generalize segments.flatten.map (BitVec.ofNat 8) = bs
  have hseeded : Ready (respond false 0x00000000#32 (setSeeded (setAcc Config.seed s))) := hs.congr rfl rfl
  have hrun := (executeAll_encode_cons (i := .seed) rfl (updbWords bs)).trans (executeAll_updbWords hseeded bs)
  obtain ⟨t, rs, ht, -, hrs, htrspq⟩ := executeAll_fin_between hrun (ws₂ := []) rfl
  obtain rfl : rs = [] := List.self_eq_append_right.1 hrs
  refine ⟨t, ht, htrspq.trans ?_⟩
  simp [updbWords, List.replicate_succ, Config.seed]

end Sys2Proof.Machine
end

section
/-! The invariant of the core along every step, agent by agent: TABLE follows TG_I, the error capture is one of R140, and
the queues stay within their depths (10_state.md R25, R27; 60_exceptions.md R140). -/

namespace Sys2Proof.Machine

/-! ## TABLE follows TG_I -/

/-- TABLE follows TG_I when it is canonical and each index reads its generated value exactly below TG_I. -/
theorem tableInv_of_tableEntry {s : State} (hcount : s.tgI.toNat ≤ 256) (hcanonical : Memory.wf s.table = true)
    (h : ∀ i : Byte, tableEntry s i = if i.toNat < s.tgI.toNat then some (genEntry i) else none) : TableInv s := by
  refine ⟨hcount, hcanonical, fun i hi => ?_⟩
  have hi' : (BitVec.ofNat 8 i).toNat = i := Nat.mod_eq_of_lt hi
  have h' := h (BitVec.ofNat 8 i)
  rwa [tableEntry, hi'] at h'

theorem TableInv.tableEntry_eq {s : State} (h : TableInv s) (i : Byte) :
    tableEntry s i = if i.toNat < s.tgI.toNat then some (genEntry i) else none := by
  rw [tableEntry, h.entries i.toNat i.isLt, BitVec.ofNat_toNat, BitVec.setWidth_eq]

theorem TableInv.tgenStep {s : State} (h : TableInv s) : TableInv (tgenStep s) := by
  obtain ⟨hlt, hs⟩ | ⟨-, hs⟩ := tgenStep_cases s
  · have htgI := tgenStep_tgI_toNat hlt
    refine tableInv_of_tableEntry (by omega) (hs ▸ Memory.put_wf h.canonical _ _) fun i => ?_
    rw [tableEntry_tgenStep_enabled hlt, htgI, h.tableEntry_eq]
    by_cases hi : i.toNat = s.tgI.toNat
    · rw [if_pos hi, if_pos (by omega)]
    · rw [if_neg hi]
      exact if_congr (by omega) rfl rfl
  · rwa [hs]

/-! ## The error capture -/

/-- An illegal word has the cause that its OP allows (30_encoding.md R65, R66). -/
theorem cause_of_decode_illegal {w : CmdWord} {c : Cause} (h : decode w = .illegal c) :
    (c = .reservedOpcode ∧ 9 ≤ (opField w).toNat) ∨
      (c = .reservedArgBits ∧ (opField w).toNat ≤ 8 ∧ opField w ≠ 5#8) := by
  obtain ⟨h1, h2⟩ := reservedEncodingsAreIllegal (opField w) (argField w)
  rw [commandWord_fields] at h1 h2
  cases c with
  | reservedOpcode => exact .inl ⟨rfl, h1.1 h⟩
  | reservedArgBits =>
    obtain ⟨hle, h5, -⟩ := h2.1 h
    exact .inr ⟨rfl, hle, h5⟩

theorem ErrorInv.congr {s t : State} (h : ErrorInv s) (hill : t.ill = s.ill) (hecause : t.ecause = s.ecause)
    (heop : t.eop = s.eop) : ErrorInv t := by
  rwa [ErrorInv, hill, hecause, heop]

theorem ErrorInv.executeWord {w : CmdWord} {s t : State} (h : ErrorInv s) (ht : executeWord w s = .next t) :
    ErrorInv t := by
  obtain ⟨c, hd, hr⟩ | ⟨i, hd, hr⟩ := executeWord_cases ht
  · cases hr
    cases hill : s.ill
    · rw [raiseIllegal_eq, hill]
      obtain ⟨rfl, hop⟩ | ⟨rfl, hop⟩ := cause_of_decode_illegal hd
      · exact .inr (.inl ⟨rfl, rfl, hop⟩)
      · exact .inr (.inr ⟨rfl, rfl, hop⟩)
    · obtain ⟨hi, hc, ho⟩ := raiseIllegal_keeps_errors c (opField w) hill
      exact h.congr hi hc ho
  · by_cases hi : i = .errclr
    · subst hi
      cases hr
      exact .inl ⟨rfl, rfl, rfl⟩
    · obtain ⟨hi, hc, ho⟩ := exec_keeps_errors hr.symm hi
      exact h.congr hi hc ho

/-! ## The whole invariant -/

/-- An executed word, legal or illegal, leaves CMDQ and the outside, and appends one response (30_encoding.md R71). -/
theorem executeWord_queues {w : CmdWord} {s t : State} (h : executeWord w s = .next t) :
    t.cmdq = s.cmdq ∧ t.env = s.env ∧ ∃ x, t.rspq = s.rspq ++ [x] := by
  obtain ⟨c, -, hr⟩ | ⟨i, -, hr⟩ := executeWord_cases h
  · cases hr
    rw [raiseIllegal_eq]
    exact ⟨rfl, rfl, _, rfl⟩
  · obtain ⟨-, -, hcmdq, henv, hrspq⟩ := exec_effect hr.symm
    exact ⟨hcmdq, henv, hrspq⟩

/-- The core at its reset values is in the invariant, whatever the outside. -/
theorem inv_resetWith (p : Config.Params) (e : Env) : Inv p { State.reset with env := e } :=
  ⟨tableInv_of_tableEntry (Nat.zero_le _) Memory.wf_nil fun _ => rfl, .inl ⟨rfl, rfl, rfl⟩, Nat.zero_le _,
    Nat.zero_le _⟩

theorem Inv.engineStep {p : Config.Params} {s t : State} (h : Inv p s) (ht : engineStep p s = .next t) : Inv p t := by
  obtain ⟨hr, -⟩ | ⟨w, rest, hq, hroom, -, hr⟩ := engineStep_cases ht
  · cases hr
    exact h
  · obtain ⟨htable, htgI⟩ := engineStep_keeps_table ht
    obtain ⟨hcmdq, -, x, hrspq⟩ := executeWord_queues hr.symm
    have herrors : ErrorInv { s with cmdq := rest } := h.errors
    refine ⟨h.table.congr htable htgI, herrors.executeWord hr.symm, ?_, ?_⟩
    · have hc := h.commands
      rw [hq, List.length_cons] at hc
      rw [hcmdq]
      exact Nat.le_of_succ_le hc
    · rw [hrspq, List.length_append]
      exact (hasRoom_iff _ _).1 hroom

theorem Inv.hostStep {p : Config.Params} {s : State} (h : Inv p s) : Inv p (hostStep p s) := by
  obtain ⟨-, hr⟩ | ⟨w, -, hroom, hr⟩ | ⟨x, rest, -, hq, hr⟩ | ⟨-, hr⟩ := hostStep_cases p s <;> rw [hr]
  · exact ⟨h.table.congr rfl rfl, h.errors, h.commands, h.responses⟩
  · refine ⟨h.table.congr rfl rfl, h.errors, ?_, h.responses⟩
    rw [sendCommand_cmdq, List.length_append]
    exact (hasRoom_iff _ _).1 hroom
  · have hresponses := h.responses
    rw [hq, List.length_cons] at hresponses
    exact ⟨h.table.congr rfl rfl, h.errors, h.commands, Nat.le_of_succ_le hresponses⟩
  · exact inv_resetWith p _

theorem Inv.tgenStep {p : Config.Params} {s : State} (h : Inv p s) : Inv p (tgenStep s) := by
  have htable := h.table.tgenStep
  obtain ⟨-, hr⟩ | ⟨-, hr⟩ := tgenStep_cases s <;> rw [hr] at htable ⊢ <;>
    exact ⟨htable, h.errors, h.commands, h.responses⟩

/-- Every step keeps the invariant, whatever the schedule and HOST. -/
theorem Inv.stepWith {p : Config.Params} {s t : State} (h : Inv p s) (ht : stepWith p s = .next t) : Inv p t := by
  have huse : Inv p (useTurn s) := ⟨h.table.congr rfl rfl, h.errors, h.commands, h.responses⟩
  obtain ⟨-, hr⟩ | ⟨-, hr⟩ | ⟨-, hr⟩ := stepWith_cases ht
  · cases hr
    exact huse.hostStep
  · exact huse.engineStep hr.symm
  · cases hr
    exact huse.tgenStep

theorem Reachable.inv {p : Config.Params} {s : State} (h : Reachable p s) : Inv p s := by
  induction h with
  | start e => exact inv_resetWith p e
  | step s t _ ht ih => exact ih.stepWith ht

/-- Every reachable state refines the sequential reference (20_memory.md R50). -/
theorem Reachable.refines {p : Config.Params} {s : State} (h : Reachable p s) : Refines s := by
  induction h with
  | start e hsent htaken =>
    refine ⟨[], hsent, rfl, ?_⟩
    rw [allResponses, htaken]
    trivial
  | step s t hs ht ih => exact everyStepRefinesTheSequentialReference p s t hs.inv ih ht

end Sys2Proof.Machine
end

section
/-! Un-seeded use: SEEDED is not read, and from reset the commands that do not load ACC compute from 0
(41_calculator_core.md R113). -/

namespace Sys2Proof.Machine

/-- The commands executed since reset are those sent that no longer wait, and the registers are what the reference leaves
after them. -/
theorem Reachable.commandState {p : Config.Params} {s : State} (h : Reachable p s) :
    commandState s = Ref.reset.after (s.env.sent.take (s.env.sent.length - s.cmdq.length)) := by
  obtain ⟨done, hsent, hregs, -⟩ := h.refines
  rw [hsent, List.length_append, Nat.add_sub_cancel_right, List.take_left, hregs]

/-- UPDB, FIN and ACCRD neither read nor write SEEDED, and answer with ERR 0 (41_calculator_core.md R113). -/
theorem exec_calculation_seeded {i : Instr} {s t : State} (hi : (∃ b, i = .updb b) ∨ i = .fin ∨ i = .accrd)
    (h : exec i s = .next t) (x : Bool) :
    exec i { s with seeded := x } = .next { t with seeded := x } ∧
      t.ill = s.ill ∧ ∃ v, t.rspq = s.rspq ++ [responseWord false v] := by
  obtain ⟨b, rfl⟩ | rfl | rfl := hi
  · obtain ⟨v, hv, h⟩ := withTableRead_next h
    cases h
    exact ⟨withTableRead_some _ hv, rfl, _, rfl⟩
  all_goals
    cases h
    exact ⟨rfl, rfl, _, rfl⟩

/-- Settles O40: the reference from reset, where ACC is 0, updates ACC by the bytes of words that do not load it. -/
theorem unseededUseComputesFromAcc : Obligations.UnseededUseComputesFromAcc :=
  ⟨fun _ _ _ x hi h => exec_calculation_seeded hi h x,
    fun _ _ hs hloads => (congrArg Ref.acc hs.commandState).trans (Ref.after_acc hloads _), by decide, by decide⟩

end Sys2Proof.Machine
end

section
/-! The control and status commands, and what STAT shows of table generation: TG_I stays 256 until reset, a completed
table reader shows 256, and TGEN's turns lead to every count (42_control.md R130, R132, R134). -/

namespace Sys2Proof.Machine

/-- TABLE_READY of STATUS says whether TG_I is 256 (10_state.md R25). -/
theorem statusReady_statusWord_iff (s : State) : statusReady (statusWord s) = true ↔ s.tgI = 256#9 := by
  rw [statusWord, statusReady_statusFrom, tableReady, beq_iff_eq]

/-- TG_COUNT of STATUS is TG_I (10_state.md R28). -/
theorem statusTgCount_statusWord (s : State) : statusTgCount (statusWord s) = s.tgI :=
  statusTgCount_statusFrom _ _ _ _ _ _

/-- A complete table stays complete until reset: TGEN has no step from TG_I = 256 on, and no other turn writes TG_I. -/
theorem tgI_complete_stepWith {p : Config.Params} {s t : State} (h256 : s.tgI = 256#9) (h : stepWith p s = .next t)
    (hreset : ¬ (nextAgent s = .host ∧ hostAction (useTurn s) = .reset)) : t.tgI = 256#9 := by
  obtain ⟨-, htgI⟩ | rfl := stepWith_table_cases h hreset
  · exact htgI.trans h256
  · have hcount : 256 ≤ (useTurn s).tgI.toNat := by rw [useTurn_tgI, h256]; decide
    rw [tgenStep_disabled hcount]
    exact h256

/-- A table reader that ENGINE removed from CMDQ was not held, so TG_I is 256 (70_reset_and_hazards.md R170). -/
theorem tgI_of_completed_reader {p : Config.Params} {s t : State} {w : CmdWord} {rest : List CmdWord}
    (hq : s.cmdq = w :: rest) (hreads : needsTable (decode w) = true) (h : engineStep p s = .next t)
    (hremoved : t.cmdq ≠ s.cmdq) : t.tgI = 256#9 := by
  obtain ⟨-, htgI⟩ := engineStep_keeps_table h
  obtain ⟨hr, -⟩ | ⟨w', rest', hq', -, hheld, -⟩ := engineStep_cases h
  · cases hr
    exact absurd rfl hremoved
  · obtain ⟨rfl, -⟩ := List.cons.inj (hq.symm.trans hq')
    obtain hnot | h256 := not_held_ready hheld
    · rw [hreads] at hnot
      cases hnot
    · exact htgI.trans h256

/-- A schedule of k TGEN turns leads to a state whose TG_I is k higher, as long as TGEN has a step on each of them. -/
theorem Reachable.after_tgen_turns {p : Config.Params} {k : Nat} {s : State} (h : Reachable p s)
    (hturns : s.env.turns = List.replicate k .tgen) (hk : s.tgI.toNat + k ≤ 256) :
    ∃ t, Reachable p t ∧ t.tgI.toNat = s.tgI.toNat + k := by
  induction k generalizing s with
  | zero => exact ⟨s, h, rfl⟩
  | succ k ih =>
    have hlt : (useTurn s).tgI.toNat < 256 := by rw [useTurn_tgI]; omega
    have hcount := tgenStep_tgI_toNat hlt
    rw [useTurn_tgI] at hcount
    have hstep : stepWith p s = .next (tgenStep (useTurn s)) := by
      rw [stepWith, nextAgent, hturns, List.replicate_succ]
      rfl
    have hrest : (tgenStep (useTurn s)).env.turns = List.replicate k .tgen := by
      rw [tgenStep_enabled hlt, tgenWrite_env, useTurn_env_turns, hturns, List.replicate_succ, List.tail_cons]
    obtain ⟨t, ht, hsum⟩ := ih (.step s _ h hstep) hrest (by omega)
    exact ⟨t, ht, by omega⟩

/-- Every count of table generation occurs (42_control.md R132): from reset, as many TGEN turns lead to it. -/
theorem exists_reachable_tgI (p : Config.Params) {k : Nat} (hk : k ≤ 256) :
    ∃ s, Reachable p s ∧ s.tgI.toNat = k := by
  have hstart := Reachable.start (p := p) { Env.start with turns := List.replicate k .tgen } rfl rfl
  obtain ⟨t, ht, hcount⟩ := hstart.after_tgen_turns rfl (by simpa using hk)
  exact ⟨t, ht, by simpa using hcount⟩

/-- While ILL = 0 nothing is captured (60_exceptions.md R140). -/
theorem ErrorInv.eq_zero_of_not_ill {s : State} (h : ErrorInv s) (hill : s.ill = false) :
    s.ecause = 0#2 ∧ s.eop = 0#8 := by
  obtain ⟨-, hzero⟩ | ⟨hset, -⟩ | ⟨hset, -⟩ := h
  · exact hzero
  all_goals
    rw [hill] at hset
    cases hset

/-- STATUS of a seeded core with its table complete and nothing captured (42_control.md R132, the example). -/
theorem statusWord_seeded_complete {s : State} (h256 : s.tgI = 256#9) (hseeded : s.seeded = true) (hill : s.ill = false)
    (herr : ErrorInv s) : statusWord s = 0x01000003#32 := by
  obtain ⟨hecause, heop⟩ := herr.eq_zero_of_not_ill hill
  rw [statusWord, tableReady, h256, hseeded, hill, hecause, heop]
  decide

/-- Settles O17: STAT's words by format N, its meaning by definition; what it shows of TG_I by what each turn does
to TG_I. -/
theorem statReadsStatus : Obligations.StatReadsStatus := by
  obtain ⟨hd, hrejected, hheld⟩ := formatN_words (op := 0x07#8) (i := .stat) (fun _ => rfl) rfl
  refine ⟨hd, hrejected, hheld, fun _ => rfl, fun s => (statusReady_statusWord_iff s).symm, fun s => ?_,
    fun _ _ _ => tgI_complete_stepWith, fun _ _ _ _ _ => tgI_of_completed_reader, fun p k hk => ?_,
    fun _ => statusWord_seeded_complete⟩
  · rw [statusTgCount_statusWord]
  · obtain ⟨s, hs, hcount⟩ := exists_reachable_tgI p hk
    exact ⟨s, hs, by rw [statusTgCount_statusWord, hcount]⟩

/-- Settles O10: NOP's words by format N, its meaning by definition. -/
theorem nopOnlyResponds : Obligations.NopOnlyResponds := by
  obtain ⟨hd, hrejected, hheld⟩ := formatN_words (op := 0x00#8) (i := .nop) (fun _ => rfl) rfl
  exact ⟨hd, hrejected, hheld, fun _ => rfl⟩

/-- Settles O18: ERRCLR's words by format N, its meaning by definition. -/
theorem errclrClearsTheCapture : Obligations.ErrclrClearsTheCapture := by
  obtain ⟨hd, hrejected, hheld⟩ := formatN_words (op := 0x08#8) (i := .errclr) (fun _ => rfl) rfl
  exact ⟨hd, hrejected, hheld, fun _ => rfl⟩

end Sys2Proof.Machine
end

section
/-! The exception: what taking it leaves in the capture, for the first illegal word and for every further one, and ENGINE's
turn on an illegal word, which the table never holds (60_exceptions.md R143, R144, R146). -/

namespace Sys2Proof.Machine

theorem causeCode_eq (c : Cause) : causeCode c = if c = .reservedOpcode then 1#2 else 2#2 := by
  cases c <;> rfl

/-- The first illegal word since reset or ERRCLR is captured with its cause and OP (R143). -/
theorem raiseIllegal_first (c : Cause) (op : Byte) {s : State} (hill : s.ill = false) :
    (raiseIllegal c op s).ill = true ∧ (raiseIllegal c op s).ecause = causeCode c ∧ (raiseIllegal c op s).eop = op := by
  simp [raiseIllegal_eq, hill]

/-- While ILL = 1 the exception is only answered (R144). -/
theorem raiseIllegal_again (c : Cause) (op : Byte) {s : State} (hill : s.ill = true) :
    raiseIllegal c op s = respond true 0x00000000#32 s := by
  rw [raiseIllegal, captureError, if_pos hill]

/-- ENGINE's turn on an illegal word with room in RSPQ: the word is removed and the exception taken, whatever TG_I is. -/
theorem engineStep_of_illegal {p : Config.Params} {s : State} {w : CmdWord} {rest : List CmdWord} {c : Cause}
    (hq : s.cmdq = w :: rest) (hroom : s.rspq.length < p.rspDepth) (hd : decode w = .illegal c) :
    engineStep p s = .next (raiseIllegal c (opField w) { s with cmdq := rest }) := by
  rw [engineStep_of_enabled hq hroom (heldByTable_of_illegal hd s), executeWord_illegal hd]

/-- Illegal words executed while ILL = 1 are answered, each by (1, 0), and change nothing else (R144). -/
theorem executeAll_illegal {ws : List CmdWord} {s : State} (hill : s.ill = true)
    (hws : ∀ w ∈ ws, ∃ c, decode w = .illegal c) :
    executeAll ws s =
      .next { s with rspq := s.rspq ++ List.replicate ws.length (responseWord true 0x00000000#32) } := by
  induction ws generalizing s with
  | nil => rw [List.length_nil, List.replicate_zero, List.append_nil, executeAll]
  | cons w ws ih =>
    obtain ⟨⟨c, hd⟩, hws⟩ := List.forall_mem_cons.1 hws
    have hhead : executeWord w s = .next (respond true 0x00000000#32 s) := by
      rw [executeWord_illegal hd, raiseIllegal_again c _ hill]
    rw [executeAll, hhead, andThen, ih (s := respond true 0x00000000#32 s) hill hws, respond_rspq, List.append_assoc,
      List.singleton_append, ← List.replicate_succ]
    rfl

/-- A word of UPDB's or TBLRD's OP with a bit of ARG[31:8] set is illegal with cause 2 (30_encoding.md R66). -/
theorem decode_readerWord_reserved {op : Byte} {arg : Word} (hop : op = 0x02#8 ∨ op = 0x06#8)
    (harg : reservedOfB arg ≠ 0#24) : decode (commandWord op arg) = .illegal .reservedArgBits := by
  obtain rfl | rfl := hop
  · exact decode_updbWord_reserved harg
  · exact decode_tblrdWord_reserved harg

/-- Settles O25: the word is not held, so ENGINE takes the exception, which writes the capture only while ILL = 0. -/
theorem illegalCommandIsCapturedAndAnswered : Obligations.IllegalCommandIsCapturedAndAnswered := by
  intro p s w rest c hq hroom hd
  rw [engineStep_of_illegal hq hroom hd, raiseIllegal_eq, ← causeCode_eq]
  cases hill : s.ill <;> rfl

/-- Settles O26: by induction on the run while ILL = 1; ERRCLR and reset both leave ILL = 0, where the next exception is
captured. -/
theorem firstIllegalCommandIsKept : Obligations.FirstIllegalCommandIsKept := by
  refine ⟨fun ws s => executeAll_illegal, fun w c s t hd hcleared => ?_⟩
  have ht : t.ill = false ∧ t.ecause = 0#2 ∧ t.eop = 0x00#8 := by
    obtain herrclr | rfl := hcleared
    · cases herrclr
      exact ⟨rfl, rfl, rfl⟩
    · exact ⟨rfl, rfl, rfl⟩
  obtain ⟨hill, hecause, heop⟩ := ht
  exact ⟨hill, hecause, heop, _, executeWord_illegal hd t, raiseIllegal_first c (opField w) hill⟩

/-- Settles O27: what is held decodes to a command that reads TABLE; a reader's word with reserved bits is illegal with
cause 2, so ENGINE takes the exception. -/
theorem illegalReaderIsNotHeld : Obligations.IllegalReaderIsNotHeld := by
  refine ⟨fun s w c hd => heldByTable_of_illegal hd s, fun s w hheld => ((heldByTable_iff w s).1 hheld).1,
    fun p s op arg rest hop harg _ hq hroom => ?_⟩
  refine ⟨_, engineStep_of_illegal hq hroom (decode_readerWord_reserved hop harg), ?_⟩
  rw [opField_commandWord, raiseIllegal_eq]
  refine ⟨rfl, rfl, fun hill => ?_, rfl, rfl, rfl, rfl⟩
  simp [hill, causeCode]

end Sys2Proof.Machine
end

section
/-! Reset and the table hold: asserting reset is HOST's one step from any state, and what a legal UPDB or TBLRD at the head
of CMDQ waits for (70_reset_and_hazards.md R160, R170). -/

namespace Sys2Proof.Machine

/-- Reset is never held: on HOST's turn it is asserted in any state (R160, R178). -/
theorem hostStep_of_reset (p : Config.Params) {s : State} (h : hostAction s = .reset) :
    hostStep p s = assertReset (dropAction s) := by
  rw [hostStep, h]
  rfl

/-- Only a legal UPDB or TBLRD is ever held (R170). -/
theorem heldByTable_of_not_reader {w : CmdWord} (hupdb : ∀ b, decode w ≠ .cmd (.updb b))
    (htblrd : ∀ k, decode w ≠ .cmd (.tblrd k)) (s : State) : heldByTable w s = false := by
  rw [Bool.eq_false_iff, Ne, heldByTable_iff]
  rintro ⟨⟨b, hb⟩ | ⟨k, hk⟩, -⟩
  · exact hupdb b hb
  · exact htblrd k hk

/-- Settles O30: the two cases of ENGINE's turn on a command that reads TABLE, and the hold of no other word. -/
theorem tableReaderWaitsForTheTable : Obligations.TableReaderWaitsForTheTable := by
  refine ⟨fun p s w rest i hq hd hi => ?_, fun s w hupdb htblrd => heldByTable_of_not_reader hupdb htblrd s⟩
  have hreads : (∃ b, decode w = .cmd (.updb b)) ∨ ∃ k, decode w = .cmd (.tblrd k) :=
    hi.imp (fun ⟨b, hb⟩ => ⟨b, hb ▸ hd⟩) (fun ⟨k, hk⟩ => ⟨k, hk ▸ hd⟩)
  obtain ⟨-, hhead⟩ := engineStepIsTheOneOfTheSpec p s
  obtain ⟨-, hwaits, hexecutes⟩ := hhead w rest hq
  refine ⟨hwaits hreads, fun h256 hroom => ?_⟩
  obtain ⟨-, hexec⟩ := hexecutes hroom (.inl h256)
  exact hexec i hd

/-- Settles O2: the step is HOST's turn, which asserts reset; each item is at its reset value by definition. -/
theorem resetIsOneStepFromAnyState : Obligations.ResetIsOneStepFromAnyState := by
  intro p s hagent haction
  have hstep : stepWith p s = .next (assertReset (dropAction (useTurn s))) := by
    rw [stepWith, hagent, agentStep, hostStep_of_reset p haction]
  exact ⟨_, hstep, rfl, rfl, fun _ => rfl, rfl, rfl, rfl, rfl, rfl, rfl⟩

end Sys2Proof.Machine
end

section
/-! The encoder and the opcode table: a decoded command has the OP and ARG of its word, and the rows of the table that hold
a word are those of the command it decodes to (30_encoding.md R64, R67, R69, R74). -/

namespace Sys2Proof

theorem decodeN_eq_cmd_iff (i j : Instr) (arg : Word) : decodeN i arg = .cmd j ↔ arg = 0#32 ∧ i = j := by
  unfold decodeN
  split <;> simp [*]

theorem decodeB_eq_cmd_iff (f : Byte → Instr) (j : Instr) (arg : Word) :
    decodeB f arg = .cmd j ↔ reservedOfB arg = 0#24 ∧ f (byteField arg) = j := by
  unfold decodeB
  split <;> simp [*]

/-- A decoded command has the OP and the ARG it was decoded from: no bit of a legal word is dropped (R69). -/
theorem fields_of_decodeFields {op : Byte} {arg : Word} {i : Instr} (h : decodeFields op arg = .cmd i) :
    i.opcode = op ∧ i.arg = arg := by
  unfold decodeFields at h
  split at h
  case h_1 hop | h_2 hop | h_4 hop | h_5 hop | h_8 hop | h_9 hop =>
    obtain ⟨rfl, rfl⟩ := (decodeN_eq_cmd_iff _ _ _).1 h
    exact ⟨BitVec.eq_of_toNat_eq hop.symm, rfl⟩
  case h_3 hop | h_7 hop =>
    obtain ⟨hreserved, rfl⟩ := (decodeB_eq_cmd_iff _ _ _).1 h
    exact ⟨BitVec.eq_of_toNat_eq hop.symm, setWidth_byteField hreserved⟩
  case h_6 hop =>
    cases h
    exact ⟨BitVec.eq_of_toNat_eq hop.symm, rfl⟩
  case h_10 => cases h

theorem encode_of_decode {w : CmdWord} {i : Instr} (h : decode w = .cmd i) : encode i = w := by
  obtain ⟨hop, harg⟩ := fields_of_decodeFields h
  rw [encode, hop, harg, commandWord_fields]

/-- Settles O6: the fields of the word are the command's OP and ARG, decoded by the OP's format. -/
theorem decodeOfEncodeIsTheCommand : Obligations.DecodeOfEncodeIsTheCommand := decode_encode

/-- Settles O7: the decoded command has the word's OP and ARG, which make up the word. -/
theorem encodeOfDecodeIsTheWord : Obligations.EncodeOfDecodeIsTheWord := fun _ _ => encode_of_decode

/-- Settles O3: each word is decoded. -/
theorem specWordsDecode : Obligations.SpecWordsDecode := by
  unfold Obligations.SpecWordsDecode
  decide

/-! ## The rows of the opcode table -/

theorem matchesItsRow : ∀ i : Instr, Laws.MatchesItsRow.Statement i
  | .nop => Laws.MatchesItsRow.nop
  | .seed => Laws.MatchesItsRow.seed
  | .updb b => Laws.MatchesItsRow.updb b
  | .fin => Laws.MatchesItsRow.fin
  | .accrd => Laws.MatchesItsRow.accrd
  | .accwr v => Laws.MatchesItsRow.accwr v
  | .tblrd idx => Laws.MatchesItsRow.tblrd idx
  | .stat => Laws.MatchesItsRow.stat
  | .errclr => Laws.MatchesItsRow.errclr

/-- Each OP has one row (R64). -/
theorem opcodeRow_eq_of_op : ∀ r ∈ opcodeRows, ∀ r' ∈ opcodeRows, r.op = r'.op → r = r' := by decide

theorem opField_and (w m : CmdWord) : opField (w &&& m) = opField w &&& opField m := BitVec.extractLsb'_and

theorem reservedBits_and (w m : CmdWord) :
    reservedOfB (argField (w &&& m)) = reservedOfB (argField w) &&& reservedOfB (argField m) := by
  rw [argField, argField, argField, BitVec.extractLsb'_and, reservedOfB, reservedOfB, reservedOfB,
    BitVec.extractLsb'_and]

/-- A word in a row of format B has the row's OP and no reserved bit of ARG set. -/
theorem fields_of_byteRow {w : CmdWord} {op : Byte} (h : w &&& 0xFFFFFFFF00#40 = commandWord op 0#32) :
    opField w = op ∧ reservedOfB (argField w) = 0#24 := by
  have hop := congrArg opField h
  have hreserved := congrArg (fun v => reservedOfB (argField v)) h
  simp only [opField_and, reservedBits_and, opField_commandWord, argField_commandWord] at hop hreserved
  exact ⟨(BitVec.and_allOnes).symm.trans hop, (BitVec.and_allOnes).symm.trans hreserved⟩

/-- A word in a row of format W has the row's OP. -/
theorem opField_of_wordRow {w : CmdWord} {op : Byte} (h : w &&& 0xFF00000000#40 = commandWord op 0#32) :
    opField w = op := by
  have hop := congrArg opField h
  rw [opField_and, opField_commandWord] at hop
  exact (BitVec.and_allOnes).symm.trans hop

/-- A word in a row decodes to a command: its OP has the row's format, and the bits that the format reserves are 0. -/
theorem exists_cmd_of_holds {w : CmdWord} {r : OpcodeRow} (hr : r ∈ opcodeRows) (h : r.holds w = true) :
    ∃ i, decode w = .cmd i ∧ i.opcode = r.op := by
  have h := eq_of_beq h
  simp only [opcodeRows, List.mem_cons, List.not_mem_nil, or_false] at hr
  obtain rfl | rfl | rfl | rfl | rfl | rfl | rfl | rfl | rfl := hr
  case inr.inr.inl =>
    obtain ⟨hop, hreserved⟩ := fields_of_byteRow (op := 0x02#8) h
    refine ⟨.updb (byteField (argField w)), ?_, rfl⟩
    rw [decode, hop]
    exact (decodeB_eq_cmd_iff .updb _ _).2 ⟨hreserved, rfl⟩
  case inr.inr.inr.inr.inr.inr.inl =>
    obtain ⟨hop, hreserved⟩ := fields_of_byteRow (op := 0x06#8) h
    refine ⟨.tblrd (byteField (argField w)), ?_, rfl⟩
    rw [decode, hop]
    exact (decodeB_eq_cmd_iff .tblrd _ _).2 ⟨hreserved, rfl⟩
  case inr.inr.inr.inr.inr.inl =>
    refine ⟨.accwr (argField w), ?_, rfl⟩
    rw [decode, opField_of_wordRow (op := 0x05#8) h]
    rfl
  all_goals
    obtain rfl := BitVec.and_allOnes.symm.trans h
    exact ⟨_, rfl, rfl⟩

/-- A word is in a row exactly when it decodes to a command with the row's OP (R64). -/
theorem opcodeRow_holds_iff {w : CmdWord} {r : OpcodeRow} (hr : r ∈ opcodeRows) :
    r.holds w = true ↔ ∃ i, decode w = .cmd i ∧ i.opcode = r.op := by
  refine ⟨exists_cmd_of_holds hr, fun ⟨i, hd, hop⟩ => ?_⟩
  obtain ⟨-, r', hr', hop', hholds⟩ := matchesItsRow i
  rw [encode_of_decode hd] at hholds
  rwa [opcodeRow_eq_of_op r hr r' hr' (hop.symm.trans hop'.symm)]

/-- Settles O5: a word in a row decodes to one command with the row's OP, and each OP has one row; so a word is in two rows
or none only when the rows are equal or the word is no command's. -/
theorem decodeAgreesWithTheOpcodeTable : Obligations.DecodeAgreesWithTheOpcodeTable := by
  refine ⟨fun w r => opcodeRow_holds_iff, fun w r hr r' hr' h h' => ?_, fun w => ⟨?_, fun hnone => ?_⟩⟩
  · obtain ⟨i, hd, hop⟩ := exists_cmd_of_holds hr h
    obtain ⟨i', hd', hop'⟩ := exists_cmd_of_holds hr' h'
    obtain rfl := Decoded.cmd.inj (hd.symm.trans hd')
    exact opcodeRow_eq_of_op r hr r' hr' (hop.symm.trans hop')
  · rintro ⟨c, hc⟩ r hr
    refine Bool.eq_false_iff.2 fun h => ?_
    obtain ⟨i, hd, -⟩ := exists_cmd_of_holds hr h
    cases hc.symm.trans hd
  · cases hd : decode w with
    | illegal c => exact ⟨c, rfl⟩
    | cmd i =>
      obtain ⟨-, r, hr, -, hholds⟩ := matchesItsRow i
      rw [encode_of_decode hd, hnone r hr] at hholds
      cases hholds

end Sys2Proof
end

section
/-! The commands: what each writes of ACC and SEEDED, its one response, and when a meaning stops (30_encoding.md R71,
41_calculator_core.md R102 to R107, 60_exceptions.md R157). -/

namespace Sys2Proof.Machine

/-- The commands that write ACC (10_state.md R22). -/
theorem exec_keeps_acc {i : Instr} {s t : State} (h : exec i s = .next t) (hseed : i ≠ .seed)
    (hupdb : ∀ b, i ≠ .updb b) (haccwr : ∀ v, i ≠ .accwr v) : t.acc = s.acc := by
  cases i
  case seed => exact absurd rfl hseed
  case updb b => exact absurd rfl (hupdb b)
  case accwr v => exact absurd rfl (haccwr v)
  case tblrd k =>
    obtain ⟨v, -, h⟩ := withTableRead_next h
    cases h
    rfl
  all_goals
    cases h
    rfl

/-- The commands that write SEEDED (10_state.md R23). -/
theorem exec_keeps_seeded {i : Instr} {s t : State} (h : exec i s = .next t) (hseed : i ≠ .seed)
    (haccwr : ∀ v, i ≠ .accwr v) : t.seeded = s.seeded := by
  cases i
  case seed => exact absurd rfl hseed
  case accwr v => exact absurd rfl (haccwr v)
  case updb | tblrd =>
    obtain ⟨v, -, h⟩ := withTableRead_next h
    cases h
    rfl
  all_goals
    cases h
    rfl

/-- Settles O22: the common effect of every meaning, and the commands that write each register. -/
theorem commandsLeaveWhatTheyDoNotName : Obligations.CommandsLeaveWhatTheyDoNotName := by
  intro i s t h
  obtain ⟨htable, htgI, hcmdq, henv, hresponse⟩ := exec_effect h
  exact ⟨hresponse, fun k => by rw [tableEntry, tableEntry, htable], htgI, hcmdq, henv, exec_keeps_acc h,
    exec_keeps_seeded h, exec_keeps_errors h⟩

/-- A command's one response has ERR 0 (30_encoding.md R63, R71). -/
theorem exec_response {i : Instr} {s t : State} (h : exec i s = .next t) :
    ∃ data, t.rspq = s.rspq ++ [responseWord false data] := by
  cases i
  case updb | tblrd =>
    obtain ⟨v, -, h⟩ := withTableRead_next h
    cases h
    exact ⟨_, rfl⟩
  all_goals
    cases h
    exact ⟨_, rfl⟩

/-- Settles O23: every entry is written, so the meaning completes, with its one response. -/
theorem everyCommandCompletesOnAReadyCore : Obligations.EveryCommandCompletesOnAReadyCore := by
  intro i s hs
  obtain ⟨t, ht⟩ := exec_completes (i := i) fun k => ⟨_, hs.2 k⟩
  obtain ⟨data, hdata⟩ := exec_response ht
  exact ⟨t, data, ht, hdata⟩

/-- A table read whose use never faults, faults exactly where the entry is unwritten. -/
theorem withTableRead_fault_iff {k : Byte} {s : State} {next : Word → State} {f : Fault} :
    withTableRead k s (fun v => .next (next v)) = .fault f ↔
      tableEntry s k = none ∧ f = .unwrittenTableEntry k := by
  cases h : tableEntry s k with
  | none => simp [withTableRead_none _ h, eq_comm]
  | some v => simp [withTableRead_some _ h]

/-- Settles O24: the two meanings that read TABLE fault where the entry is unwritten; the others answer next. -/
theorem onlyAnUnwrittenEntryStopsACommand : Obligations.OnlyAnUnwrittenEntryStopsACommand := by
  refine fun i s => ⟨fun f => ?_, exec_not_refused i s⟩
  cases i
  case updb b => exact withTableRead_fault_iff.trans (by simp)
  case tblrd k => exact withTableRead_fault_iff.trans (by simp)
  all_goals exact iff_of_false nofun (by simp)

/-- An executed word appends one response, whose ERR says whether it is illegal (30_encoding.md R71). -/
theorem executeWord_response {w : CmdWord} {s t : State} (h : executeWord w s = .next t) :
    ∃ x, t.rspq = s.rspq ++ [x] ∧ (responseErr x = true ↔ ∃ c, decode w = .illegal c) := by
  obtain ⟨c, hd, hr⟩ | ⟨i, hd, hr⟩ := executeWord_cases h
  · cases hr
    exact ⟨responseWord true 0x00000000#32, by rw [raiseIllegal_eq], by simp [responseErr_responseWord, hd]⟩
  · obtain ⟨data, hdata⟩ := exec_response hr.symm
    exact ⟨_, hdata, by simp [responseErr_responseWord, hd]⟩

/-- Settles O49: a turn that changes CMDQ removes the head and executes it. -/
theorem eachExecutedCommandGivesOneResponse : Obligations.EachExecutedCommandGivesOneResponse := by
  intro p s t w rest hq h hchanged
  obtain ⟨hr, -⟩ | ⟨w', rest', hq', -, -, hr⟩ := engineStep_cases h
  · cases hr
    exact absurd rfl hchanged
  · obtain ⟨rfl, rfl⟩ := List.cons.inj (hq.symm.trans hq')
    obtain ⟨hcmdq, -, -⟩ := executeWord_queues hr.symm
    exact ⟨hcmdq, executeWord_response (s := { s with cmdq := rest }) hr.symm⟩

/-- Once TG_I = 256 nothing is held (70_reset_and_hazards.md R170). -/
theorem heldByTable_of_complete {s : State} (h : s.tgI = 256#9) (w : CmdWord) : heldByTable w s = false := by
  rw [heldByTable, tableReady, h]
  exact Bool.and_false _

/-- Settles O8: the turn is ENGINE's enabled step, which executes the head by its meaning. -/
theorem stepExecutesTheDecodedCommand : Obligations.StepExecutesTheDecodedCommand := by
  intro s w rest i hagent hq hroom hd hfree
  have hheld : heldByTable w (useTurn s) = false := by
    obtain h256 | ⟨hupdb, htblrd⟩ := hfree
    · exact heldByTable_of_complete (s := useTurn s) h256 w
    · exact heldByTable_of_not_reader (fun b hb => hupdb b (Decoded.cmd.inj (hd.symm.trans hb)))
        (fun k hk => htblrd k (Decoded.cmd.inj (hd.symm.trans hk))) _
  rw [step, stepWith, hagent, agentStep, engineStep_of_enabled (s := useTurn s) hq hroom hheld, executeWord_cmd hd]
  rfl

end Sys2Proof.Machine
end

section
/-! The invariant and the record of R33: both hold at reset and every step keeps them; in a state of the invariant no step
stops (10_state.md R24, R33; 60_exceptions.md R157). -/

namespace Sys2Proof.Machine

/-- Settles O42: TABLE is unwritten, TG_I is 0, nothing is captured and the queues are empty. -/
theorem invariantHoldsAtReset : Obligations.InvariantHoldsAtReset := fun p => inv_resetWith p Env.start

/-- Settles O43: the turn of each agent keeps the invariant. -/
theorem everyStepKeepsTheInvariant : Obligations.EveryStepKeepsTheInvariant :=
  ⟨fun _ _ _ => Inv.stepWith, fun _ _ => Inv.stepWith⟩

/-- Settles O45: nothing was executed, and the registers are at the reference's reset values. -/
theorem refinementHoldsAtReset : Obligations.RefinementHoldsAtReset := fun e hsent htaken =>
  (Reachable.start (p := Config.params) e hsent htaken).refines

/-- A command that does not read TABLE completes in every state. -/
theorem exec_completes_of_not_reader {i : Instr} (h : needsTable (.cmd i) = false) (s : State) :
    ∃ t, exec i s = .next t := by
  cases i
  case updb | tblrd => cases h
  all_goals exact ⟨_, rfl⟩

/-- A word that the table hold lets through completes (70_reset_and_hazards.md R170). -/
theorem executeWord_completes {w : CmdWord} {s : State} (htable : TableInv s) (hheld : heldByTable w s = false) :
    ∃ t, executeWord w s = .next t := by
  cases hd : decode w with
  | illegal c => exact ⟨_, executeWord_illegal hd s⟩
  | cmd i =>
    rw [executeWord_cmd hd]
    obtain hnot | h256 := not_held_ready hheld
    · rw [hd] at hnot
      exact exec_completes_of_not_reader hnot s
    · obtain ⟨-, hentry⟩ := htable.ready h256
      exact exec_completes fun k => ⟨_, hentry k⟩

theorem engineStep_completes (p : Config.Params) {s : State} (htable : TableInv s) : ∃ t, engineStep p s = .next t := by
  obtain ⟨hr, -⟩ | ⟨w, rest, -, -, hheld, hr⟩ := engineStep_cases (rfl : engineStep p s = _)
  · exact ⟨s, hr⟩
  · rw [hr]
    exact executeWord_completes (htable.congr rfl rfl) hheld

theorem Inv.useTurn {p : Config.Params} {s : State} (h : Inv p s) : Inv p (useTurn s) :=
  ⟨h.table.congr rfl rfl, h.errors, h.commands, h.responses⟩

/-- Settles O44: HOST's and TGEN's turns always answer next; ENGINE executes only what the table hold lets through. -/
theorem noStepOfTheInvariantStops : Obligations.NoStepOfTheInvariantStops := by
  intro p s hinv
  obtain ⟨-, hr⟩ | ⟨-, hr⟩ | ⟨-, hr⟩ := stepWith_cases (rfl : stepWith p s = _) <;> rw [hr]
  · exact ⟨_, rfl⟩
  · exact engineStep_completes p hinv.useTurn.table
  · exact ⟨_, rfl⟩

/-! ## The record of R33 -/

theorem inBounds_engineStep {p : Config.Params} {s t : State} (h : s.inBounds p = true) (ht : engineStep p s = .next t) :
    t.inBounds p = true := by
  obtain ⟨hr, -⟩ | ⟨w, rest, hq, hroom, -, hr⟩ := engineStep_cases ht
  · cases hr
    exact h
  · obtain ⟨hwf, hcount, hcommands, -⟩ := inBounds_iff.1 h
    obtain ⟨htable, htgI⟩ := engineStep_keeps_table ht
    obtain ⟨hcmdq, -, x, hrspq⟩ := executeWord_queues hr.symm
    rw [hq] at hcommands
    rw [inBounds_iff, htable, htgI, hcmdq, hrspq, List.length_append]
    exact ⟨hwf, hcount, Nat.le_of_succ_le hcommands, (hasRoom_iff _ _).1 hroom⟩

theorem inBounds_hostStep {p : Config.Params} {s : State} (h : s.inBounds p = true) :
    (hostStep p s).inBounds p = true := by
  obtain ⟨hwf, hcount, hcommands, hresponses⟩ := inBounds_iff.1 h
  obtain ⟨-, hr⟩ | ⟨w, -, hroom, hr⟩ | ⟨x, rest, -, hq, hr⟩ | ⟨-, hr⟩ := hostStep_cases p s <;> rw [hr]
  · exact h
  · refine inBounds_iff.2 ⟨hwf, hcount, ?_, hresponses⟩
    rw [sendCommand_cmdq, List.length_append]
    exact (hasRoom_iff _ _).1 hroom
  · rw [hq] at hresponses
    exact inBounds_iff.2 ⟨hwf, hcount, hcommands, Nat.le_of_succ_le hresponses⟩
  · exact inBounds_of_inv (inv_resetWith p _)

theorem inBounds_tgenStep {p : Config.Params} {s : State} (h : s.inBounds p = true) :
    (tgenStep s).inBounds p = true := by
  obtain ⟨hwf, hcount, hcommands, hresponses⟩ := inBounds_iff.1 h
  obtain ⟨hlt, hr⟩ | ⟨-, hr⟩ := tgenStep_cases s
  · have htgI := tgenStep_tgI_toNat hlt
    rw [hr] at htgI ⊢
    exact inBounds_iff.2 ⟨Memory.put_wf hwf _ _, by omega, hcommands, hresponses⟩
  · rwa [hr]

theorem inBounds_stepWith {p : Config.Params} {s t : State} (h : s.inBounds p = true) (ht : stepWith p s = .next t) :
    t.inBounds p = true := by
  have huse : (useTurn s).inBounds p = true := h
  obtain ⟨-, hr⟩ | ⟨-, hr⟩ | ⟨-, hr⟩ := stepWith_cases ht
  · cases hr
    exact inBounds_hostStep huse
  · exact inBounds_engineStep huse hr.symm
  · cases hr
    exact inBounds_tgenStep huse

/-- Settles O57: the bounds hold at reset, and the turn of each agent keeps them. -/
theorem everyStepKeepsTheRecord : Obligations.EveryStepKeepsTheRecord :=
  ⟨fun p => ⟨⟨_, inBounds_of_inv (inv_resetWith p Env.start)⟩, rfl⟩,
    fun _ r _ _ ht => ⟨⟨_, inBounds_stepWith (s := { toCoreState := r.val, env := _ }) r.property ht⟩, rfl⟩⟩

end Sys2Proof.Machine
end

section
/-! The table and the byte update as bit-steps: bit-steps are linear over XOR, and on a word whose low bits are 0 they only
shift (40_table_generator.md R80, R81, R89; 41_calculator_core.md R111). -/

namespace Sys2Proof.Machine

theorem bitstep_xor (v w : Word) : bitstep (v ^^^ w) = bitstep v ^^^ bitstep w := by
  unfold bitstep
  rw [BitVec.getLsbD_xor, BitVec.ushiftRight_xor_distrib]
  cases v.getLsbD 0 <;> cases w.getLsbD 0
  · rfl
  · exact BitVec.xor_assoc _ _ _
  · simp only [Bool.xor_false, if_true, Bool.false_eq_true, if_false]
    ac_rfl
  · simp only [Bool.xor_self, if_true, Bool.false_eq_true, if_false]
    rw [BitVec.xor_assoc, BitVec.xor_comm Config.poly, BitVec.xor_assoc, BitVec.xor_self, BitVec.xor_zero]

theorem bitsteps_xor (n : Nat) (v w : Word) : bitsteps n (v ^^^ w) = bitsteps n v ^^^ bitsteps n w := by
  induction n generalizing v w with
  | zero => rfl
  | succ n ih => rw [bitsteps, bitstep_xor, ih, bitsteps, bitsteps]

/-- Settles O32: bit-steps and zero extension are linear; the entries named are computed. -/
theorem tableEntriesAreLinear : Obligations.TableEntriesAreLinear := by
  refine ⟨by decide, by decide, fun x y => ?_, by decide, by decide, by decide, by decide, by decide, by decide,
    by decide⟩
  rw [genEntry, zextByte, BitVec.setWidth_xor, bitsteps_xor]
  rfl

/-- A bit-step of a word whose bit 0 is 0 is a shift, so n bit-steps of one whose low n bits are 0 are n shifts. -/
theorem bitsteps_of_low_zero {n : Nat} {v : Word} (h : ∀ k < n, v.getLsbD k = false) : bitsteps n v = v >>> n := by
  induction n generalizing v with
  | zero => exact (BitVec.ushiftRight_zero v).symm
  | succ n ih =>
    have hstep : bitstep v = v >>> 1 := by rw [bitstep, h 0 (Nat.succ_pos n), if_neg Bool.false_ne_true]
    rw [bitsteps, hstep, ih fun k hk => ?_, ← BitVec.shiftRight_add, Nat.add_comm]
    rw [BitVec.getLsbD_ushiftRight]
    exact h _ (by omega)

/-- The bits of a word above its low byte, in their place. -/
def aboveLowByte (v : Word) : Word := (v >>> 8) <<< 8

theorem aboveLowByte_xor_lowByte (v : Word) : aboveLowByte v ^^^ zextByte (lowByte v) = v := by
  apply BitVec.eq_of_getLsbD_eq
  intro k hk
  simp only [aboveLowByte, zextByte, lowByte, BitVec.getLsbD_xor, BitVec.getLsbD_shiftLeft, BitVec.getLsbD_ushiftRight,
    BitVec.getLsbD_setWidth, BitVec.getLsbD_extractLsb', hk]
  by_cases hlow : k < 8
  · simp [hlow]
  · have hsum : 8 + (k - 8) = k := by omega
    simp [hlow, hsum]

/-- The eight bit-steps shift the bits above the low byte and turn the low byte into its table entry. -/
theorem bitsteps_eight (v : Word) : bitsteps 8 v = (v >>> 8) ^^^ genEntry (lowByte v) := by
  have hlow : ∀ k < 8, (aboveLowByte v).getLsbD k = false := fun k hk => by
    simp [aboveLowByte, BitVec.getLsbD_shiftLeft, hk]
  have hshift : aboveLowByte v >>> 8 = v >>> 8 := by
    apply BitVec.eq_of_getLsbD_eq
    intro k hk
    simp only [aboveLowByte, BitVec.getLsbD_ushiftRight, BitVec.getLsbD_shiftLeft, Nat.add_sub_cancel_left]
    by_cases h : 8 + k < 32
    · simp [h]
    · simp [h, BitVec.getLsbD_of_ge v (8 + k) (by omega)]
  calc bitsteps 8 v = bitsteps 8 (aboveLowByte v ^^^ zextByte (lowByte v)) := by rw [aboveLowByte_xor_lowByte]
    _ = (v >>> 8) ^^^ genEntry (lowByte v) := by rw [bitsteps_xor, bitsteps_of_low_zero hlow, hshift]; rfl

/-- A byte is shifted out whole. -/
theorem zextByte_ushiftRight (b : Byte) : zextByte b >>> 8 = 0#32 := by
  apply BitVec.eq_of_getLsbD_eq
  intro k _
  rw [BitVec.getLsbD_ushiftRight, zextByte, BitVec.getLsbD_setWidth, BitVec.getLsbD_of_ge b _ (by omega)]
  simp

/-- Settles O34: the low byte of ACC XOR the byte is the update's index, and the rest of it is ACC's. -/
theorem updateIsBitSerial : Obligations.UpdateIsBitSerial := by
  intro a b
  have hshift : (a ^^^ zextByte b) >>> 8 = a >>> 8 := by
    rw [BitVec.ushiftRight_xor_distrib, zextByte_ushiftRight, BitVec.xor_zero]
  calc upd1 a b = ((a ^^^ zextByte b) >>> 8) ^^^ genEntry (lowByte (a ^^^ zextByte b)) := by rw [hshift]; rfl
    _ = bitsteps 8 (a ^^^ zextByte b) := (bitsteps_eight _).symm

end Sys2Proof.Machine
end

section
/-! Runs of commands on a ready core: their update of ACC, whatever segments the bytes come in and whatever else is executed
between them, and what a SEED or a saved accumulator makes of a run (41_calculator_core.md R108, R109, R112; 20_memory.md
R56). -/

namespace Sys2Proof.Machine

/-- Settles O35: the update by a concatenation, and by induction on the segments. -/
theorem updateIgnoresSegmentBoundaries : Obligations.UpdateIgnoresSegmentBoundaries := by
  refine ⟨fun a s₁ s₂ => (update_append a s₁ s₂).symm, fun a segments => ?_⟩
  induction segments generalizing a with
  | nil => rfl
  | cons s segments ih => rw [List.foldl_cons, ih, List.flatten_cons, update_append]

/-- Settles O36: a ready core runs the words as the reference has it. -/
theorem uninterruptedRunIsTheUpdateFold : Obligations.UninterruptedRunIsTheUpdateFold := by
  intro s ws hs hloads
  obtain ⟨t, -, ht, -, hregs, -⟩ := executeAll_ready hs ws
  exact ⟨t, ht, (congrArg Ref.acc hregs).trans (Ref.after_acc hloads _)⟩

/-- What a command leaves in ACC depends on ACC alone. -/
theorem Ref.next_acc_congr {r r' : Ref} (h : r.acc = r'.acc) (w : CmdWord) : (r.next w).acc = (r'.next w).acc := by
  unfold Ref.next
  split
  case h_10 => split <;> split <;> exact h
  all_goals simp only [h]

/-- Every response but STAT's is determined by the command and ACC. -/
theorem Ref.answers_unique {r r' : Ref} {w : CmdWord} {x y : RspWord} (hacc : r.acc = r'.acc)
    (hw : decode w ≠ .cmd .stat) (hx : r.answers w x) (hy : r'.answers w y) : x = y := by
  unfold Ref.answers at hx hy
  cases hd : decode w with
  | illegal c =>
    simp only [hd] at hx hy
    exact hx.trans hy.symm
  | cmd i =>
    cases i
    case stat => exact absurd hd hw
    all_goals
      simp only [hd, hacc] at hx hy
      exact hx.trans hy.symm

/-- Without its SEEDED and error fields a STATUS value does not depend on them (41_calculator_core.md R112). -/
theorem withoutSeededAndError_statusFrom (tg : BitVec 9) (eop eop' : Byte) (ec ec' : BitVec 2)
    (ill ill' sd sd' rdy : Bool) :
    withoutSeededAndError (statusFrom tg eop ec ill sd rdy) =
      withoutSeededAndError (statusFrom tg eop' ec' ill' sd' rdy) := by
  apply BitVec.eq_of_getLsbD_eq
  intro k hk
  rw [withoutSeededAndError, withoutSeededAndError, BitVec.getLsbD_and, BitVec.getLsbD_and,
    statusFrom_bit _ _ _ _ _ _ _ hk, statusFrom_bit _ _ _ _ _ _ _ hk]
  by_cases hmask : (0xFFFF00C9#32).getLsbD k = true
  · have hkept : k = 0 ∨ k = 3 ∨ (6 ≤ k ∧ k < 8) ∨ 16 ≤ k := by
      revert hmask
      interval_cases k <;> decide
    obtain rfl | rfl | ⟨hlo, hhi⟩ | hlo := hkept
    · rfl
    · rfl
    · simp (disch := omega) only [if_neg, if_pos]
    · simp (disch := omega) only [if_neg]
  · rw [Bool.eq_false_iff.2 hmask, Bool.and_false, Bool.and_false]

/-- The responses of two ready cores with the same ACC to one word agree (41_calculator_core.md R112). -/
theorem executeWord_ready_agree {s₁ s₂ : State} (h₁ : Ready s₁) (h₂ : Ready s₂) (hacc : s₁.acc = s₂.acc) (w : CmdWord) :
    ∃ t₁ t₂ x₁ x₂, executeWord w s₁ = .next t₁ ∧ executeWord w s₂ = .next t₂ ∧ t₁.acc = t₂.acc ∧
      t₁.rspq = s₁.rspq ++ [x₁] ∧ t₂.rspq = s₂.rspq ++ [x₂] ∧ agreeAfterSeed w x₁ x₂ := by
  by_cases hstat : decode w = .cmd .stat
  · refine ⟨_, _, _, _, executeWord_cmd hstat s₁, executeWord_cmd hstat s₂, hacc, rfl, rfl, ?_⟩
    rw [agreeAfterSeed, if_pos hstat]
    simp only [responseErr_responseWord, responseData_responseWord, true_and]
    rw [statusWord, statusWord, tableReady, tableReady, h₁.1, h₂.1]
    exact withoutSeededAndError_statusFrom _ _ _ _ _ _ _ _ _ _
  · obtain ⟨t₁, ht₁, -, -, hregs₁, x₁, hx₁, hanswer₁⟩ := executeWord_ready h₁ w
    obtain ⟨t₂, ht₂, -, -, hregs₂, x₂, hx₂, hanswer₂⟩ := executeWord_ready h₂ w
    refine ⟨t₁, t₂, x₁, x₂, ht₁, ht₂, ?_, hx₁, hx₂, ?_⟩
    · calc t₁.acc = ((commandState s₁).next w).acc := congrArg Ref.acc hregs₁
        _ = ((commandState s₂).next w).acc := Ref.next_acc_congr hacc w
        _ = t₂.acc := (congrArg Ref.acc hregs₂).symm
    · rw [agreeAfterSeed, if_neg hstat]
      exact Ref.answers_unique hacc hstat hanswer₁ hanswer₂

/-- Two ready cores with the same ACC execute any words to the same ACC and to responses that agree. -/
theorem executeAll_ready_agree {s₁ s₂ : State} (h₁ : Ready s₁) (h₂ : Ready s₂) (hacc : s₁.acc = s₂.acc)
    (ws : List CmdWord) :
    ∃ t₁ t₂ xs₁ xs₂, executeAll ws s₁ = .next t₁ ∧ executeAll ws s₂ = .next t₂ ∧ t₁.acc = t₂.acc ∧
      t₁.rspq = s₁.rspq ++ xs₁ ∧ t₂.rspq = s₂.rspq ++ xs₂ ∧ allAgree agreeAfterSeed ws xs₁ xs₂ := by
  induction ws generalizing s₁ s₂ with
  | nil => exact ⟨s₁, s₂, [], [], rfl, rfl, hacc, (List.append_nil _).symm, (List.append_nil _).symm, trivial⟩
  | cons w ws ih =>
    obtain ⟨m₁, m₂, x₁, x₂, hm₁, hm₂, hacc', hx₁, hx₂, hagree⟩ := executeWord_ready_agree h₁ h₂ hacc w
    obtain ⟨htable₁, htgI₁⟩ := executeWord_keeps_table hm₁
    obtain ⟨htable₂, htgI₂⟩ := executeWord_keeps_table hm₂
    obtain ⟨t₁, t₂, xs₁, xs₂, ht₁, ht₂, htacc, hxs₁, hxs₂, hagrees⟩ :=
      ih (h₁.congr htable₁ htgI₁) (h₂.congr htable₂ htgI₂) hacc'
    refine ⟨t₁, t₂, x₁ :: xs₁, x₂ :: xs₂, ?_, ?_, htacc, ?_, ?_, hagree, hagrees⟩
    · rw [executeAll, hm₁, andThen, ht₁]
    · rw [executeAll, hm₂, andThen, ht₂]
    · rw [hxs₁, hx₁, List.append_assoc, List.singleton_append]
    · rw [hxs₂, hx₂, List.append_assoc, List.singleton_append]

/-- Settles O39: SEED gives both cores the same ACC and the same response; from there the runs agree. -/
theorem reseedingForgetsThePast : Obligations.ReseedingForgetsThePast := by
  intro s₁ s₂ ws h₁ h₂
  have hseeded₁ : Ready (respond false 0x00000000#32 (setSeeded (setAcc Config.seed s₁))) := h₁.congr rfl rfl
  have hseeded₂ : Ready (respond false 0x00000000#32 (setSeeded (setAcc Config.seed s₂))) := h₂.congr rfl rfl
  obtain ⟨t₁, t₂, xs₁, xs₂, ht₁, ht₂, hacc, hxs₁, hxs₂, hagrees⟩ := executeAll_ready_agree hseeded₁ hseeded₂ rfl ws
  refine ⟨t₁, t₂, _ :: xs₁, _ :: xs₂, (executeAll_encode_cons (i := .seed) rfl ws).trans ht₁,
    (executeAll_encode_cons (i := .seed) rfl ws).trans ht₂, hacc, hxs₁.trans (List.append_cons _ _ _).symm,
    hxs₂.trans (List.append_cons _ _ _).symm, ?_, hagrees⟩
  simp [agreeAfterSeed, decode_encode]

/-- Settles O41: the saved response is ACC after the first bytes; whatever runs between leaves the core ready, and ACCWR
loads what was saved. -/
theorem savedCalculationGoesOn : Obligations.SavedCalculationGoesOn := by
  intro s m u s₁ s₂ between saved hs hm hsaved hu
  rw [executeAll_append, executeAll_updbWords hs, andThen, executeAll_encode_cons (i := .accrd) rfl] at hm
  have hmready : Ready m := by
    cases hm
    exact hs.congr rfl rfl
  have hdata : responseData saved = update s.acc s₁ := by
    cases hm
    rw [respond_rspq, List.getLast?_concat] at hsaved
    rw [← Option.some.inj hsaved, responseData_responseWord]
  obtain ⟨u', -, hu', huready, -⟩ := executeAll_ready hmready between
  obtain rfl := Host.Outcome.next.inj (hu.symm.trans hu')
  have hloaded : Ready (respond false 0x00000000#32 (setSeeded (setAcc (responseData saved) u))) :=
    huready.congr rfl rfl
  refine ⟨_, (executeAll_encode_cons (i := .accwr _) rfl _).trans (executeAll_updbWords hloaded s₂), ?_⟩
  rw [update_append, ← hdata]
  rfl

end Sys2Proof.Machine
end

section
/-! Schedules in which TGEN has enough turns: they complete the table, and a held command executes on the ENGINE turn that
follows (40_table_generator.md R86, 70_reset_and_hazards.md R172). -/

namespace Sys2Proof.Machine

/-- A state of the invariant whose next turns are ts: HOST has a listed action, none a reset, for each of its turns among
them, and TGEN a turn for each missing entry. -/
structure CompletesDuring (p : Config.Params) (ts more : List Config.Agent) (s : State) : Prop where
  inv : Inv p s
  turns : s.env.turns = ts ++ more
  noReset : ∀ a ∈ s.env.script, a ≠ .reset
  hostTurns : ts.count .host ≤ s.env.script.length
  tgenTurns : 256 - s.tgI.toNat ≤ ts.count .tgen

/-- What HOST's turn leaves of its script: without the action it took, or as it was when HOST is held. -/
theorem hostStep_script (p : Config.Params) {s : State} {a : Config.HostAction} {as : List Config.HostAction}
    (h : s.env.script = a :: as) : (hostStep p s).env.script = as ∨ (hostStep p s).env.script = a :: as := by
  have ha : hostAction s = a := by rw [hostAction, h]
  obtain ⟨-, hr⟩ | ⟨w, -, -, hr⟩ | ⟨x, rest, -, -, hr⟩ | ⟨-, hr⟩ := hostStep_cases p s <;> rw [hr]
  · right
    rw [keepAction_env_script, h, ha, List.tail_cons]
  · left
    rw [sendCommand_env_script, dropAction_env_script, h, List.tail_cons]
  · left
    rw [dropAction_env_script, h, List.tail_cons]
  · left
    rw [assertReset_env_script, dropAction_env_script, h, List.tail_cons]

theorem hostStep_turns (p : Config.Params) (s : State) : (hostStep p s).env.turns = s.env.turns := by
  obtain ⟨-, hr⟩ | ⟨w, -, -, hr⟩ | ⟨x, rest, -, -, hr⟩ | ⟨-, hr⟩ := hostStep_cases p s <;> rw [hr] <;> rfl

theorem engineStep_env {p : Config.Params} {s t : State} (h : engineStep p s = .next t) : t.env = s.env := by
  obtain ⟨hr, -⟩ | ⟨w, rest, -, -, -, hr⟩ := engineStep_cases h
  · cases hr
    rfl
  · obtain ⟨-, henv, -⟩ := executeWord_queues hr.symm
    exact henv

/-- TGEN's turn changes TABLE and TG_I only (40_table_generator.md R83). -/
theorem tgenStep_frame (s : State) :
    (tgenStep s).cmdq = s.cmdq ∧ (tgenStep s).rspq = s.rspq ∧ (tgenStep s).env = s.env := by
  obtain ⟨-, hr⟩ | ⟨-, hr⟩ := tgenStep_cases s <;> rw [hr] <;> exact ⟨rfl, rfl, rfl⟩

/-- TGEN's turn counts one entry, up to 256. -/
theorem tgenStep_tgI_min {s : State} (h : s.tgI.toNat ≤ 256) : (tgenStep s).tgI.toNat = min 256 (s.tgI.toNat + 1) := by
  obtain hlt | hge := Nat.lt_or_ge s.tgI.toNat 256
  · rw [tgenStep_tgI_toNat hlt]
    omega
  · rw [tgenStep_disabled hge]
    omega

theorem CompletesDuring.hostTurn {p : Config.Params} {ts more : List Config.Agent} {s : State}
    (h : CompletesDuring p (.host :: ts) more s) : CompletesDuring p ts more (hostStep p (useTurn s)) := by
  obtain ⟨hinv, hturns, hnoReset, hhost, htgen⟩ := h
  rw [List.count_cons_self] at hhost
  rw [List.count_cons_of_ne (by decide)] at htgen
  obtain ⟨a, as, hscript⟩ := List.exists_cons_of_length_pos (Nat.lt_of_lt_of_le (Nat.succ_pos _) hhost)
  rw [hscript] at hnoReset hhost
  obtain ⟨ha, has⟩ := List.forall_mem_cons.1 hnoReset
  have haction : hostAction (useTurn s) ≠ .reset := by rwa [hostAction, useTurn_env_script, hscript]
  obtain ⟨-, htgI⟩ := hostStep_keeps_table p haction
  refine ⟨hinv.useTurn.hostStep, ?_, ?_, ?_, by rwa [htgI]⟩
  · rw [hostStep_turns, useTurn_env_turns, hturns]
    rfl
  · obtain hs | hs := hostStep_script p (s := useTurn s) hscript <;> rw [hs]
    · exact has
    · exact hnoReset
  · obtain hs | hs := hostStep_script p (s := useTurn s) hscript <;> rw [hs]
    · exact Nat.le_of_succ_le_succ hhost
    · exact Nat.le_of_succ_le hhost

theorem CompletesDuring.engineTurn {p : Config.Params} {ts more : List Config.Agent} {s t : State}
    (h : CompletesDuring p (.engine :: ts) more s) (ht : engineStep p (useTurn s) = .next t) :
    CompletesDuring p ts more t := by
  obtain ⟨hinv, hturns, hnoReset, hhost, htgen⟩ := h
  rw [List.count_cons_of_ne (by decide)] at hhost htgen
  have henv := engineStep_env ht
  obtain ⟨-, htgI⟩ := engineStep_keeps_table ht
  refine ⟨hinv.useTurn.engineStep ht, ?_, by rwa [henv], by rwa [henv], by rwa [htgI]⟩
  rw [henv, useTurn_env_turns, hturns]
  rfl

theorem CompletesDuring.tgenTurn {p : Config.Params} {ts more : List Config.Agent} {s : State}
    (h : CompletesDuring p (.tgen :: ts) more s) : CompletesDuring p ts more (tgenStep (useTurn s)) := by
  obtain ⟨hinv, hturns, hnoReset, hhost, htgen⟩ := h
  rw [List.count_cons_of_ne (by decide)] at hhost
  rw [List.count_cons_self] at htgen
  have hcount : s.tgI.toNat ≤ 256 := hinv.table.count
  have htgI := tgenStep_tgI_min hinv.useTurn.table.count
  obtain ⟨-, -, henv⟩ := tgenStep_frame (useTurn s)
  refine ⟨hinv.useTurn.tgenStep, ?_, by rwa [henv], by rwa [henv], ?_⟩
  · rw [henv, useTurn_env_turns, hturns]
    rfl
  · rw [htgI, useTurn_tgI]
    omega

theorem CompletesDuring.step {p : Config.Params} {a : Config.Agent} {ts more : List Config.Agent} {s : State}
    (h : CompletesDuring p (a :: ts) more s) : ∃ t, stepWith p s = .next t ∧ CompletesDuring p ts more t := by
  have hagent : nextAgent s = a := by rw [nextAgent, h.turns, List.cons_append]
  rw [stepWith, hagent]
  cases a with
  | host => exact ⟨_, rfl, h.hostTurn⟩
  | tgen => exact ⟨_, rfl, h.tgenTurn⟩
  | engine =>
    obtain ⟨t, ht⟩ := engineStep_completes p (s := useTurn s) h.inv.useTurn.table
    exact ⟨t, ht, h.engineTurn ht⟩

theorem tgI_eq_complete {s : State} (h : s.tgI.toNat = 256) : s.tgI = 256#9 := BitVec.eq_of_toNat_eq h

/-- Settles O29: by induction on the schedule; at its end no entry is missing. -/
theorem tgenTurnsCompleteTheTable : Obligations.TgenTurnsCompleteTheTable := by
  intro p s ts more hinv hturns hnoReset hhost htgen
  have h : CompletesDuring p ts more s := ⟨hinv, hturns, hnoReset, hhost, htgen⟩
  clear hinv hturns hnoReset hhost htgen
  induction ts generalizing s with
  | nil =>
    have hcount := h.inv.table.count
    have hmissing := h.tgenTurns
    rw [List.count_nil] at hmissing
    exact ⟨s, rfl, tgI_eq_complete (by omega)⟩
  | cons a ts ih =>
    obtain ⟨m, hm, hrest⟩ := h.step
    obtain ⟨t, ht, h256⟩ := ih m hrest
    exact ⟨t, by rw [List.length_cons, runWith, hm, andThen, ht], h256⟩

/-! ## A held command -/

theorem runWith_add (p : Config.Params) (m n : Nat) (s : State) :
    runWith p (m + n) s = andThen (runWith p m s) (runWith p n) := by
  induction m generalizing s with
  | zero => rw [Nat.zero_add, runWith, andThen]
  | succ m ih =>
    rw [Nat.succ_add, runWith, runWith]
    cases stepWith p s with
    | next t => exact ih t
    | fault e => rfl
    | refused e => rfl

/-- k turns of TGEN on the schedule lead to a state of the invariant with k entries more, up to 256, and the same queues. -/
theorem runWith_tgenTurns {p : Config.Params} {k : Nat} {s : State} {more : List Config.Agent} (hinv : Inv p s)
    (hturns : s.env.turns = List.replicate k .tgen ++ more) :
    ∃ t, runWith p k s = .next t ∧ Inv p t ∧ t.env.turns = more ∧ t.cmdq = s.cmdq ∧ t.rspq = s.rspq ∧
      t.tgI.toNat = min 256 (s.tgI.toNat + k) := by
  induction k generalizing s with
  | zero =>
    have hcount := hinv.table.count
    exact ⟨s, rfl, hinv, hturns, rfl, rfl, by omega⟩
  | succ k ih =>
    rw [List.replicate_succ, List.cons_append] at hturns
    have hstep : stepWith p s = .next (tgenStep (useTurn s)) := by
      rw [stepWith, nextAgent, hturns]
      rfl
    have htgI := tgenStep_tgI_min hinv.useTurn.table.count
    rw [useTurn_tgI] at htgI
    obtain ⟨hcmdq, hrspq, henv⟩ := tgenStep_frame (useTurn s)
    obtain ⟨t, ht, htinv, htturns, htcmdq, htrspq, httgI⟩ := ih (hinv.stepWith hstep) (by
      rw [henv, useTurn_env_turns, hturns, List.tail_cons])
    refine ⟨t, ?_, htinv, htturns, htcmdq.trans hcmdq, htrspq.trans hrspq, by omega⟩
    rw [runWith, hstep, andThen, ht]

/-- Settles O31: after TGEN's turns TG_I is 256, so ENGINE's turn executes the command, a legal one. -/
theorem heldCommandIsReleased : Obligations.HeldCommandIsReleased := by
  intro p s w rest more hinv hq hheld hroom hturns
  obtain ⟨m, hm, hminv, hmturns, hmcmdq, hmrspq, hmtgI⟩ := runWith_tgenTurns hinv hturns
  have h256 : m.tgI = 256#9 := tgI_eq_complete (by omega)
  have hreads : needsTable (decode w) = true := (Bool.and_eq_true_iff.1 hheld).1
  obtain ⟨i, hd⟩ : ∃ i, decode w = .cmd i := by
    obtain ⟨b, hb⟩ | ⟨k, hk⟩ := (needsTable_iff _).1 hreads
    · exact ⟨_, hb⟩
    · exact ⟨_, hk⟩
  have hfree : heldByTable w (useTurn m) = false := heldByTable_of_complete (s := useTurn m) h256 w
  have hready : Ready { useTurn m with cmdq := rest } := (hminv.table.ready h256).congr rfl rfl
  obtain ⟨t, ht⟩ := exec_completes (i := i) fun k => ⟨_, hready.2 k⟩
  obtain ⟨-, htgI, hcmdq, -, -⟩ := exec_effect ht
  obtain ⟨data, hdata⟩ := exec_response ht
  have hstep : stepWith p m = .next t := by
    rw [stepWith, nextAgent, hmturns, agentStep, engineStep_of_enabled (s := useTurn m) (hmcmdq.trans hq)
      (by rwa [useTurn_rspq, hmrspq]) hfree, executeWord_cmd hd, ht]
  refine ⟨t, data, (runWith_add p 256 1 s).trans ?_, hcmdq, ?_, htgI.trans h256⟩
  · rw [hm, andThen, runWith, hstep]
    rfl
  · rw [hdata, ← hmrspq]
    rfl

end Sys2Proof.Machine
end

section
/-! ENGINE's and TGEN's turns in either order (20_memory.md R51). -/

namespace Sys2Proof.Machine

/-- A word that reads neither TABLE nor STATUS executes the same before and after TGEN's step (20_memory.md R51). -/
theorem executeWord_tgenWrite {w : CmdWord} {s t : State} (hreads : needsTable (decode w) = false)
    (hstat : decode w ≠ .cmd .stat) (h : executeWord w s = .next t) :
    executeWord w (tgenWrite s) = .next (tgenWrite t) := by
  obtain ⟨c, hd, hr⟩ | ⟨i, hd, hr⟩ := executeWord_cases h
  · cases hr
    rw [executeWord_illegal hd, raiseIllegal_eq, raiseIllegal_eq]
    rfl
  · rw [executeWord_cmd hd]
    rw [hd] at hreads
    cases i
    case updb | tblrd => cases hreads
    case stat => exact absurd hd hstat
    all_goals
      cases hr
      rfl

/-- A hold lasts over TGEN's step unless it writes the last entry (70_reset_and_hazards.md R170). -/
theorem heldByTable_tgenWrite {w : CmdWord} {s : State} (h : heldByTable w s = true) (hlast : s.tgI ≠ 255#9) :
    heldByTable w (tgenWrite s) = true := by
  obtain ⟨hreads, -⟩ := (heldByTable_iff w s).1 h
  refine (heldByTable_iff w _).2 ⟨hreads, ?_⟩
  rw [tgenWrite_tgI]
  bv_omega

/-- ENGINE's turn without a step has none after TGEN's step either, unless that step lifts the hold. -/
theorem engineStep_tgenWrite_of_disabled {p : Config.Params} {s : State}
    (h : s.cmdq = [] ∨ hasRoom p.rspBeyondOne s.rspq = false ∨ ∃ w rest, s.cmdq = w :: rest ∧ heldByTable w s = true)
    (hlast : ∀ w rest, s.cmdq = w :: rest → heldByTable w s = true → s.tgI ≠ 255#9) :
    engineStep p (tgenWrite s) = .next (tgenWrite s) := by
  refine engineStep_of_disabled fun w rest (hq : s.cmdq = w :: rest) => ?_
  obtain hnil | hfull | ⟨w', rest', hq', hheld⟩ := h
  · rw [hnil] at hq
    cases hq
  · rw [Bool.eq_false_iff, Ne, hasRoom_iff] at hfull
    exact .inl (Nat.not_lt.1 hfull)
  · obtain ⟨rfl, -⟩ := List.cons.inj (hq.symm.trans hq')
    exact .inr (heldByTable_tgenWrite hheld (hlast w rest hq hheld))

/-- ENGINE's step on a word other than STAT does the same after TGEN's step. -/
theorem engineStep_tgenWrite_of_enabled {p : Config.Params} {s t : State} {w : CmdWord} {rest : List CmdWord}
    (hlt : s.tgI.toNat < 256) (hq : s.cmdq = w :: rest) (hroom : hasRoom p.rspBeyondOne s.rspq = true)
    (hheld : heldByTable w s = false) (hstat : decode w ≠ .cmd .stat)
    (h : executeWord w { s with cmdq := rest } = .next t) : engineStep p (tgenWrite s) = .next (tgenWrite t) := by
  have hreads : needsTable (decode w) = false := by
    obtain hnot | h256 := not_held_ready hheld
    · exact hnot
    · rw [h256] at hlt
      exact absurd hlt (by decide)
  have hfree : heldByTable w (tgenWrite s) = false := by rw [heldByTable, hreads, Bool.false_and]
  rw [engineStep_of_enabled (s := tgenWrite s) hq ((hasRoom_iff _ _).1 hroom) hfree]
  exact executeWord_tgenWrite (s := { s with cmdq := rest }) hreads hstat h

/-- Settles O33: TGEN's step leaves ENGINE's turn without a step as it is, and commutes with the execution of a word that
reads neither TABLE nor STATUS; from TG_I = 256 on TGEN has no step. -/
theorem engineAndTgenTurnsCommute : Obligations.EngineAndTgenTurnsCommute := by
  intro p s t h hexcept
  obtain ⟨-, htgI⟩ := engineStep_keeps_table h
  obtain ⟨hlt, hs⟩ | ⟨hge, hs⟩ := tgenStep_cases s
  · rw [hs, tgenStep_enabled (s := t) (by rwa [htgI])]
    obtain ⟨hr, hdisabled⟩ | ⟨w, rest, hq, hroom, hheld, hr⟩ := engineStep_cases h
    · cases hr
      exact engineStep_tgenWrite_of_disabled hdisabled fun w rest hq => (hexcept w rest hq).2
    · exact engineStep_tgenWrite_of_enabled hlt hq hroom hheld (hexcept w rest hq).1 hr.symm
  · rw [hs, tgenStep_disabled (s := t) (by rwa [htgI]), h]

end Sys2Proof.Machine
end

section
/-! What a step writes of the registers and of TABLE: only ENGINE's executed word, HOST's reset and TGEN's write change
them (10_state.md R22 to R24, 40_table_generator.md R85). -/

namespace Sys2Proof.Machine

/-- HOST changes what the commands determine by asserting reset only (70_reset_and_hazards.md R178). -/
theorem commandState_hostStep (p : Config.Params) {s : State} (h : hostAction s ≠ .reset) :
    commandState (hostStep p s) = commandState s := by
  obtain ⟨-, hr⟩ | ⟨w, -, -, hr⟩ | ⟨x, rest, -, -, hr⟩ | ⟨hreset, -⟩ := hostStep_cases p s
  case inr.inr.inr => exact absurd hreset h
  all_goals
    rw [hr]
    rfl

/-- A step that changes what the commands determine is a reset or ENGINE's execution of the oldest command. -/
theorem stepWith_changes_commandState {p : Config.Params} {s t : State} (h : stepWith p s = .next t)
    (hchanged : commandState t ≠ commandState s) :
    (nextAgent s = .host ∧ hostAction (useTurn s) = .reset ∧ commandState t = Ref.reset) ∨
    (nextAgent s = .engine ∧ ∃ w rest, s.cmdq = w :: rest ∧
      executeWord w { useTurn s with cmdq := rest } = .next t) := by
  obtain ⟨hagent, hr⟩ | ⟨hagent, hr⟩ | ⟨-, hr⟩ := stepWith_cases h
  · cases hr
    by_cases haction : hostAction (useTurn s) = .reset
    · exact .inl ⟨hagent, haction, by rw [hostStep_of_reset p haction]; rfl⟩
    · exact absurd (commandState_hostStep p haction) hchanged
  · obtain ⟨ht, -⟩ | ⟨w, rest, hq, -, -, ht⟩ := engineStep_cases hr.symm
    · cases ht
      exact absurd rfl hchanged
    · exact .inr ⟨hagent, w, rest, hq, ht.symm⟩
  · cases hr
    exact absurd (commandState_tgenStep (useTurn s)) hchanged

/-- A word that changes ACC is a SEED, an UPDB or an ACCWR. -/
theorem executeWord_changes_acc {w : CmdWord} {s t : State} (h : executeWord w s = .next t) (hchanged : t.acc ≠ s.acc) :
    decode w = .cmd .seed ∨ (∃ b, decode w = .cmd (.updb b)) ∨ ∃ v, decode w = .cmd (.accwr v) := by
  obtain ⟨c, -, hr⟩ | ⟨i, hd, hr⟩ := executeWord_cases h
  · cases hr
    rw [raiseIllegal_eq] at hchanged
    exact absurd rfl hchanged
  · rw [hd]
    by_contra hnone
    simp only [Decoded.cmd.injEq, not_or, not_exists] at hnone
    obtain ⟨hseed, hupdb, haccwr⟩ := hnone
    exact hchanged (exec_keeps_acc hr.symm hseed hupdb haccwr)

/-- Settles O50: a step that changes ACC is a reset, or ENGINE executes a word that changes it. -/
theorem accIsWrittenOnlyByItsCommands : Obligations.AccIsWrittenOnlyByItsCommands := by
  intro p s t h hchanged
  obtain ⟨hagent, haction, hreset⟩ | ⟨hagent, w, rest, hq, ht⟩ :=
    stepWith_changes_commandState h fun heq => hchanged (congrArg Ref.acc heq)
  · exact .inl ⟨hagent, haction, congrArg Ref.acc hreset⟩
  · exact .inr ⟨hagent, w, rest, hq, executeWord_changes_acc ht hchanged⟩

/-- A word that changes SEEDED is a SEED or an ACCWR and sets it. -/
theorem executeWord_changes_seeded {w : CmdWord} {s t : State} (h : executeWord w s = .next t)
    (hchanged : t.seeded ≠ s.seeded) : t.seeded = true ∧ loadsAcc w = true := by
  obtain ⟨c, -, hr⟩ | ⟨i, hd, hr⟩ := executeWord_cases h
  · cases hr
    rw [raiseIllegal_eq] at hchanged
    exact absurd rfl hchanged
  · rw [loadsAcc, hd]
    cases i
    case seed | accwr =>
      cases hr
      exact ⟨rfl, rfl⟩
    all_goals exact absurd (exec_keeps_seeded hr.symm nofun nofun) hchanged

theorem Ref.next_seeded (r : Ref) (w : CmdWord) : (r.next w).seeded = (r.seeded || loadsAcc w) := by
  unfold Ref.next loadsAcc
  cases hd : decode w with
  | illegal c => cases hill : r.ill <;> simp
  | cmd i => cases i <;> simp

/-- The reference's SEEDED is set by the words that load ACC, and cleared by none. -/
theorem Ref.after_seeded (r : Ref) (ws : List CmdWord) : (r.after ws).seeded = (r.seeded || ws.any loadsAcc) := by
  induction ws generalizing r with
  | nil => exact (Bool.or_false _).symm
  | cons w ws ih => rw [Ref.after, ih, Ref.next_seeded, List.any_cons, Bool.or_assoc]

/-- Settles O51: the reference from reset, where SEEDED is 0; a step that changes SEEDED is a reset, or ENGINE executes a
word that sets it. -/
theorem seededIsSetByLoadingAndClearedByReset : Obligations.SeededIsSetByLoadingAndClearedByReset := by
  refine ⟨fun p s hs => ?_, fun p s t h hchanged => ?_⟩
  · have hseeded : s.seeded = (s.env.sent.take (s.env.sent.length - s.cmdq.length)).any loadsAcc :=
      (congrArg Ref.seeded hs.commandState).trans (Ref.after_seeded _ _)
    rw [hseeded, List.any_eq_true]
  · obtain ⟨hagent, haction, hreset⟩ | ⟨hagent, w, rest, hq, ht⟩ :=
      stepWith_changes_commandState h fun heq => hchanged (congrArg Ref.seeded heq)
    · exact .inl ⟨hagent, haction, congrArg Ref.seeded hreset⟩
    · obtain ⟨hset, hloads⟩ := executeWord_changes_seeded ht hchanged
      exact .inr ⟨hagent, hset, w, rest, hq, hloads⟩

/-- TGEN's turn changes an entry only by writing its generated value at index TG_I. -/
theorem tgenStep_changes_entry {s : State} {i : Byte} (h : tableEntry (tgenStep s) i ≠ tableEntry s i) :
    i.toNat = s.tgI.toNat ∧ tableEntry (tgenStep s) i = some (genEntry i) := by
  obtain ⟨hlt, -⟩ | ⟨-, hs⟩ := tgenStep_cases s
  · rw [tableEntry_tgenStep_enabled hlt] at h ⊢
    by_cases hi : i.toNat = s.tgI.toNat
    · exact ⟨hi, if_pos hi⟩
    · exact absurd (if_neg hi) h
  · rw [hs] at h
    exact absurd rfl h

/-- Settles O52: HOST's turn changes TABLE by reset only, ENGINE's never, TGEN's at index TG_I, which TableInv has
unwritten. -/
theorem tableIsWrittenOnceByTgen : Obligations.TableIsWrittenOnceByTgen := by
  intro p s t i h hchanged
  obtain ⟨hagent, hr⟩ | ⟨-, hr⟩ | ⟨hagent, hr⟩ := stepWith_cases h
  · cases hr
    by_cases haction : hostAction (useTurn s) = .reset
    · exact .inl ⟨hagent, haction, by rw [hostStep_of_reset p haction]; rfl⟩
    · obtain ⟨htable, -⟩ := hostStep_keeps_table p haction
      exact absurd (congrArg (Memory.entry · i.toNat) htable) hchanged
  · obtain ⟨htable, -⟩ := engineStep_keeps_table hr.symm
    exact absurd (congrArg (Memory.entry · i.toNat) htable) hchanged
  · cases hr
    obtain ⟨hi, hwritten⟩ := tgenStep_changes_entry (s := useTurn s) hchanged
    refine .inr ⟨hagent, hi, hwritten, fun htable => ?_⟩
    rw [htable.tableEntry_eq]
    exact if_neg (Nat.not_lt.2 (Nat.le_of_eq hi.symm))

end Sys2Proof.Machine
end

section
/-! HOST's turn in its cases, and the two full queues (70_reset_and_hazards.md R178, 60_exceptions.md R157). -/

namespace Sys2Proof.Machine

/-- A listed action that can be taken is taken. -/
theorem hostStep_of_enabled {p : Config.Params} {s : State} {a : Config.HostAction} {more : List Config.HostAction}
    (hscript : s.env.script = a :: more) (h : hostEnabled p a s = true) :
    hostStep p s = hostEffect a { s with env := { s.env with script := more } } := by
  have ha : hostAction s = a := by rw [hostAction, hscript]
  simp only [hostStep, ha, h, if_true, dropAction, hscript, List.tail_cons]

/-- A listed action that cannot be taken stays, and so does everything else: HOST is held. -/
theorem hostStep_of_held {p : Config.Params} {s : State} {a : Config.HostAction} {more : List Config.HostAction}
    (hscript : s.env.script = a :: more) (h : hostEnabled p a s = false) : hostStep p s = s := by
  have ha : hostAction s = a := by rw [hostAction, hscript]
  simp only [hostStep, ha, h, Bool.false_eq_true, if_false, keepAction, hscript, List.tail_cons]
  rw [← hscript]

theorem hostEnabled_send_iff (p : Config.Params) (w : CmdWord) (s : State) :
    hostEnabled p (.send w) s = true ↔ s.cmdq.length < p.cmdDepth := hasRoom_iff _ _

/-- With CMDQ full a send is held (R178). -/
theorem hostStep_of_full {p : Config.Params} {s : State} {w : CmdWord} {more : List Config.HostAction}
    (hscript : s.env.script = .send w :: more) (hfull : p.cmdDepth ≤ s.cmdq.length) : hostStep p s = s :=
  hostStep_of_held hscript (Bool.eq_false_iff.2 fun h => Nat.not_lt.2 hfull ((hostEnabled_send_iff p w s).1 h))

/-- Settles O53: a send is taken while CMDQ has room, a take while RSPQ is not empty; else HOST is held. -/
theorem hostSendsAndTakesInOrder : Obligations.HostSendsAndTakesInOrder := by
  refine fun p s more => ⟨fun w hscript => ⟨fun hroom => ?_, hostStep_of_full hscript⟩, fun hscript =>
    ⟨fun x rest hq => ?_, fun hnil => hostStep_of_held hscript ?_⟩⟩
  · rw [hostStep_of_enabled hscript ((hostEnabled_send_iff p w s).2 hroom)]
    rfl
  · have htaken : hostEnabled p .take s = true := by rw [hostEnabled, hq]; rfl
    rw [hostStep_of_enabled hscript htaken]
    simp only [hostEffect, takeResponse, hq]
  · rw [hostEnabled, hnil]
    rfl

/-- Settles O54: ENGINE has no room for a response, HOST none for its word. -/
theorem fullQueuesHoldHostAndEngine : Obligations.FullQueuesHoldHostAndEngine := fun _ _ _ _ hcommands hresponses hscript =>
  ⟨engineStep_of_disabled fun _ _ _ => .inl (Nat.le_of_eq hresponses.symm),
    hostStep_of_full hscript (Nat.le_of_eq hcommands.symm)⟩

end Sys2Proof.Machine
end

section
/-! The nine items of R33 alone decide what a command, and an agent's turn, leaves of the core (10_state.md R33). -/

namespace Sys2Proof.Machine

theorem ofCore_withTableRead_congr {s s' : State} (htable : s.table = s'.table) (k : Byte) {f g : Word → Result}
    (h : ∀ v, ofCore (f v) = ofCore (g v)) : ofCore (withTableRead k s f) = ofCore (withTableRead k s' g) := by
  have hentry : tableEntry s k = tableEntry s' k := by rw [tableEntry, tableEntry, htable]
  unfold withTableRead
  rw [hentry]
  split
  · exact h _
  · rfl

theorem ofCore_exec_congr (c : CoreState) (e e' : Env) (i : Instr) :
    ofCore (exec i { toCoreState := c, env := e }) = ofCore (exec i { toCoreState := c, env := e' }) := by
  cases i
  case updb b => exact ofCore_withTableRead_congr rfl _ fun _ => rfl
  case tblrd k => exact ofCore_withTableRead_congr rfl _ fun _ => rfl
  all_goals rfl

theorem ofCore_executeWord_congr (c : CoreState) (e e' : Env) (w : CmdWord) :
    ofCore (executeWord w { toCoreState := c, env := e }) = ofCore (executeWord w { toCoreState := c, env := e' }) := by
  cases hd : decode w with
  | illegal d =>
    rw [executeWord_illegal hd, executeWord_illegal hd, raiseIllegal_eq, raiseIllegal_eq]
    rfl
  | cmd i =>
    rw [executeWord_cmd hd, executeWord_cmd hd]
    exact ofCore_exec_congr c e e' i

theorem ofCore_engineStep_congr (p : Config.Params) (c : CoreState) (e e' : Env) :
    ofCore (engineStep p { toCoreState := c, env := e }) = ofCore (engineStep p { toCoreState := c, env := e' }) := by
  unfold engineStep
  dsimp only
  split
  · rfl
  · rename_i w rest hq
    have hheld : heldByTable w { toCoreState := c, env := e } = heldByTable w { toCoreState := c, env := e' } := rfl
    rw [hheld]
    split
    · rfl
    · exact ofCore_executeWord_congr { c with cmdq := rest } e e' w

theorem takeResponse_toCoreState (s : State) :
    (takeResponse s).toCoreState = { s.toCoreState with rspq := s.rspq.tail } := by
  unfold takeResponse
  split
  · rename_i hnil
    rw [hnil, List.tail_nil, ← hnil]
  · rename_i hq
    rw [hq, List.tail_cons]

theorem hostEffect_toCoreState_congr (a : Config.HostAction) {s s' : State} (h : s.toCoreState = s'.toCoreState) :
    (hostEffect a s).toCoreState = (hostEffect a s').toCoreState := by
  cases a with
  | send w => exact congrArg (fun c : CoreState => { c with cmdq := c.cmdq ++ [w] }) h
  | take => rw [hostEffect, hostEffect, takeResponse_toCoreState, takeResponse_toCoreState, h]
  | reset => rfl

theorem hostEnabled_congr (p : Config.Params) (a : Config.HostAction) (c : CoreState) (e e' : Env) :
    hostEnabled p a { toCoreState := c, env := e } = hostEnabled p a { toCoreState := c, env := e' } := by
  cases a <;> rfl

/-- All that HOST's turn takes from outside the nine items is its action. -/
theorem hostStep_toCoreState_congr (p : Config.Params) {c : CoreState} {e e' : Env}
    (h : hostAction { toCoreState := c, env := e } = hostAction { toCoreState := c, env := e' }) :
    (hostStep p { toCoreState := c, env := e }).toCoreState =
      (hostStep p { toCoreState := c, env := e' }).toCoreState := by
  unfold hostStep
  dsimp only
  rw [h, hostEnabled_congr p _ c e e']
  split
  · exact hostEffect_toCoreState_congr _ rfl
  · rfl

theorem tgenStep_toCoreState_congr (c : CoreState) (e e' : Env) :
    (tgenStep { toCoreState := c, env := e }).toCoreState = (tgenStep { toCoreState := c, env := e' }).toCoreState := by
  have henabled : tgenEnabled { toCoreState := c, env := e } = tgenEnabled { toCoreState := c, env := e' } := rfl
  unfold tgenStep
  rw [henabled]
  split <;> rfl

/-- Settles O58: the meaning of a command and the turn of each agent, from two outsides of the same core. -/
theorem theNineItemsAreTheCompleteState : Obligations.TheNineItemsAreTheCompleteState := by
  refine ⟨ofCore_exec_congr, fun p ⟨c, e⟩ ⟨c', e'⟩ hcore hagent haction => ?_⟩
  obtain rfl : c = c' := hcore
  unfold stepWith
  rw [← hagent]
  cases hturn : nextAgent { toCoreState := c, env := e } with
  | host => exact congrArg Host.Outcome.next (hostStep_toCoreState_congr p (haction hturn))
  | engine => exact ofCore_engineStep_congr p c _ _
  | tgen => exact congrArg Host.Outcome.next (tgenStep_toCoreState_congr c _ _)

end Sys2Proof.Machine
end

section
/-! The reset values and the expansion of the pseudo-instructions, by their definitions (70_reset_and_hazards.md R161,
30_encoding.md R75 to R79). -/

namespace Sys2Proof

/-- Settles O1: each item of the reset state, and STATUS computed from them. -/
theorem resetLeavesTheTabulatedValues : Obligations.ResetLeavesTheTabulatedValues :=
  ⟨rfl, rfl, fun _ => rfl, rfl, by decide, by decide, rfl, rfl, rfl, rfl, rfl, by decide⟩

namespace Asm

/-- UPDATE is one UPDB a byte (R75). -/
theorem expand_update (s : List Nat) : expand (.update s) = s.flatMap fun n => expand (.updb n) := by
  rw [expand, updateCommands, List.map_map, List.map_eq_flatMap]
  rfl

/-- CALC is SEED, an UPDATE for each segment, FIN (R76). -/
theorem expand_calculate_segments (segments : List (List Nat)) :
    expand (.calculate segments) = expand .seed ++ segments.flatMap (fun s => expand (.update s)) ++ expand .fin := by
  simp only [expand, calcCommands, List.map_append, List.map_flatMap, List.map_cons, List.map_nil]

/-- Settles O56: UPDATE and CALC by their lists of commands, the others by definition. -/
theorem pseudoInstructionsExpand : Obligations.PseudoInstructionsExpand :=
  ⟨expand_update, expand_calculate_segments, rfl, fun _ => rfl, rfl, rfl, fun _ => rfl, rfl⟩

end Asm

end Sys2Proof
end

section
/-! What is observed of a run since reset: it does not depend on the schedule, and the counts that STAT shows never decrease
(70_reset_and_hazards.md R173, 42_control.md R133). -/

namespace Sys2Proof.Machine

/-- Two responses of the reference to one STAT agree (42_control.md R133). -/
theorem Ref.answers_agree {r : Ref} {w : CmdWord} {x y : RspWord} (hx : r.answers w x) (hy : r.answers w y) :
    responsesAgree w x y := by
  unfold responsesAgree
  split
  · rename_i hstat
    simp only [Ref.answers, hstat] at hx hy
    obtain ⟨k, -, rfl⟩ := hx
    obtain ⟨k', -, rfl⟩ := hy
    simp only [responseErr_responseWord, responseData_responseWord, statusReady_statusFrom, beq_iff_eq]
    exact ⟨trivial, withoutProgress_statusFrom _ _ _ _ _ _ _ _, fun hk hk' => by rw [hk, hk']⟩
  · rename_i hstat
    exact Ref.answers_unique rfl hstat hx hy

theorem Ref.answersAll_agree {r : Ref} {ws : List CmdWord} {xs ys : List RspWord} (hx : r.answersAll ws xs)
    (hy : r.answersAll ws ys) : allAgree responsesAgree ws xs ys := by
  induction ws generalizing r xs ys with
  | nil =>
    match xs, ys, hx, hy with
    | [], [], _, _ => trivial
    | _ :: _, _, hx, _ => exact hx.elim
    | [], _ :: _, _, hy => exact hy.elim
  | cons w ws ih =>
    match xs, ys, hx, hy with
    | _ :: _, _ :: _, ⟨hx, hxs⟩, ⟨hy, hys⟩ => exact ⟨Ref.answers_agree hx hy, ih hxs hys⟩
    | [], _, hx, _ => exact hx.elim
    | _ :: _, [], _, hy => exact hy.elim

/-- A complete run has executed its commands, and HOST has taken their responses (70_reset_and_hazards.md R176). -/
theorem RunComplete.asReference {P : List CmdWord} {s : State} (hrun : RunComplete P s) (hs : Refines s) :
    commandState s = Ref.reset.after P ∧ Ref.reset.answersAll P s.env.taken := by
  obtain ⟨hsent, hcmdq, hrspq, -⟩ := hrun
  obtain ⟨done, hdone, hregs, hanswers⟩ := hs
  rw [hsent, hcmdq, List.append_nil] at hdone
  rw [allResponses, hrspq, List.append_nil] at hanswers
  subst hdone
  exact ⟨hregs, hanswers⟩

/-- Once TG_I = 256, TABLE is one list: it is canonical and every entry is the generated one (10_state.md R25). -/
theorem TableInv.table_unique {s₁ s₂ : State} (h₁ : TableInv s₁) (h₂ : TableInv s₂) (htgI : s₁.tgI = s₂.tgI) :
    s₁.table = s₂.table := by
  refine Memory.ext_of_rising h₁.canonical h₂.canonical fun i => ?_
  obtain hi | hi := Nat.lt_or_ge i 256
  · rw [h₁.entries i hi, h₂.entries i hi, htgI]
  · rw [Memory.entry_beyond h₁.canonical hi, Memory.entry_beyond h₂.canonical hi]

/-- Settles O47: both runs are the reference's run of P, whose responses leave only STAT's progress open. -/
theorem observationsDoNotDependOnTheSchedule : Obligations.ObservationsDoNotDependOnTheSchedule := by
  intro p₁ p₂ s₁ s₂ P hs₁ hs₂ hrun₁ hrun₂
  obtain ⟨hregs₁, hanswers₁⟩ := hrun₁.asReference hs₁.refines
  obtain ⟨hregs₂, hanswers₂⟩ := hrun₂.asReference hs₂.refines
  exact ⟨Ref.answersAll_agree hanswers₁ hanswers₂, hregs₁.trans hregs₂.symm,
    fun h₁ h₂ => hs₁.inv.table.table_unique hs₂.inv.table (h₁.trans h₂.symm)⟩

/-! ## The counts that STAT shows -/

theorem statCounts_nil (ws : List CmdWord) : statCounts ws [] = [] := by
  cases ws <;> rfl

theorem statCounts_append {ws us : List CmdWord} {xs ys : List RspWord} (h : xs.length = ws.length) :
    statCounts (ws ++ us) (xs ++ ys) = statCounts ws xs ++ statCounts us ys := by
  induction ws generalizing xs with
  | nil =>
    obtain rfl := List.length_eq_zero_iff.1 h
    rfl
  | cons w ws ih =>
    cases xs with
    | nil => cases h
    | cons x xs =>
      have ih := ih (Nat.succ.inj h)
      simp only [List.cons_append, statCounts, ih]
      split <;> rfl

/-- Words without a response yet add no count. -/
theorem statCounts_append_waiting {ws us : List CmdWord} {xs : List RspWord} (h : xs.length = ws.length) :
    statCounts (ws ++ us) xs = statCounts ws xs := by
  have happend := statCounts_append (us := us) (ys := []) h
  rwa [List.append_nil, statCounts_nil, List.append_nil] at happend

/-- Of the commands sent since reset those no longer in CMDQ were answered, and the counts that their STATs returned rise
to TG_I (42_control.md R133). -/
structure CountsRise (done : List CmdWord) (s : State) : Prop where
  sent : s.env.sent = done ++ s.cmdq
  answered : (allResponses s).length = done.length
  ordered : (statCounts done (allResponses s)).Pairwise (· ≤ ·)
  bounded : ∀ k ∈ statCounts done (allResponses s), k ≤ s.tgI.toNat

theorem countsRise_reset {s : State} (hsent : s.env.sent = []) (htaken : s.env.taken = []) (hcmdq : s.cmdq = [])
    (hrspq : s.rspq = []) : CountsRise [] s := by
  have hall : allResponses s = [] := by rw [allResponses, htaken, hrspq, List.append_nil]
  refine ⟨by rw [hsent, hcmdq, List.append_nil], congrArg List.length hall, ?_, ?_⟩ <;> rw [hall, statCounts_nil]
  · exact .nil
  · exact nofun

/-- HOST's turn sends a word, which waits, or takes a response, which stays counted, or starts anew. -/
theorem CountsRise.hostStep {p : Config.Params} {done : List CmdWord} {s : State} (h : CountsRise done s) :
    ∃ done', CountsRise done' (hostStep p s) := by
  obtain ⟨hsent, hanswered, hordered, hbounded⟩ := h
  obtain ⟨-, hr⟩ | ⟨w, -, -, hr⟩ | ⟨x, rest, -, hq, hr⟩ | ⟨-, hr⟩ := hostStep_cases p s <;> rw [hr]
  · exact ⟨done, hsent, hanswered, hordered, hbounded⟩
  · refine ⟨done, ?_, hanswered, hordered, hbounded⟩
    rw [sendCommand_env_sent, dropAction_env_sent, hsent, sendCommand_cmdq, dropAction_cmdq, List.append_assoc]
  · have hall : s.env.taken ++ [x] ++ rest = allResponses s := by rw [allResponses, hq, ← List.append_cons]
    refine ⟨done, hsent, ?_, ?_, ?_⟩ <;> simp only [allResponses, hall]
    · exact hanswered
    · exact hordered
    · exact hbounded
  · exact ⟨[], countsRise_reset rfl rfl rfl rfl⟩

theorem CountsRise.tgenStep {done : List CmdWord} {s : State} (h : CountsRise done s) : CountsRise done (tgenStep s) := by
  obtain ⟨hsent, hanswered, hordered, hbounded⟩ := h
  obtain ⟨hlt, hr⟩ | ⟨-, hr⟩ := tgenStep_cases s
  · have htgI := tgenStep_tgI_toNat hlt
    rw [hr] at htgI ⊢
    refine ⟨hsent, hanswered, hordered, fun k hk => ?_⟩
    have hk' := hbounded k hk
    omega
  · rw [hr]
    exact ⟨hsent, hanswered, hordered, hbounded⟩

/-- The one response of an executed word counts TG_I where the word is a STAT, and nothing else. -/
theorem statCounts_executeWord {w : CmdWord} {s t : State} (h : executeWord w s = .next t) :
    ∃ x, t.rspq = s.rspq ++ [x] ∧ (statCounts [w] [x] = [] ∨ statCounts [w] [x] = [s.tgI.toNat]) := by
  by_cases hstat : decode w = .cmd .stat
  · rw [executeWord_cmd hstat] at h
    cases h
    refine ⟨_, rfl, .inr ?_⟩
    rw [statCounts, if_pos hstat, responseData_responseWord, statusTgCount_statusWord, statCounts_nil]
  · obtain ⟨x, hx, -⟩ := executeWord_response h
    refine ⟨x, hx, .inl ?_⟩
    rw [statCounts, if_neg hstat, statCounts_nil]

/-- ENGINE's turn adds at most one count, TG_I, which none before it exceeds. -/
theorem CountsRise.engineStep {p : Config.Params} {done : List CmdWord} {s t : State} (h : CountsRise done s)
    (ht : engineStep p s = .next t) : ∃ done', CountsRise done' t := by
  obtain ⟨hr, -⟩ | ⟨w, rest, hq, -, -, hr⟩ := engineStep_cases ht
  · cases hr
    exact ⟨done, h⟩
  · obtain ⟨hsent, hanswered, hordered, hbounded⟩ := h
    obtain ⟨hcmdq, henv, -⟩ := executeWord_queues hr.symm
    obtain ⟨-, htgI⟩ := engineStep_keeps_table ht
    obtain ⟨x, hx, hcount⟩ := statCounts_executeWord hr.symm
    have hall : allResponses t = allResponses s ++ [x] := by
      rw [allResponses, henv, hx, allResponses, List.append_assoc]
    have hlength : (allResponses t).length = (done ++ [w]).length := by
      rw [hall, List.length_append, List.length_append, hanswered]
      rfl
    refine ⟨done ++ [w], ?_, hlength, ?_, ?_⟩
    · rw [henv, hcmdq, hsent, hq, List.append_assoc, List.singleton_append]
    · rw [hall, statCounts_append hanswered]
      obtain hcount | hcount := hcount <;> rw [hcount]
      · rwa [List.append_nil]
      · exact List.pairwise_append.2 ⟨hordered, List.pairwise_singleton _ _, fun a ha b hb =>
          List.mem_singleton.1 hb ▸ hbounded a ha⟩
    · rw [hall, statCounts_append hanswered, htgI]
      refine List.forall_mem_append.2 ⟨hbounded, ?_⟩
      obtain hcount | hcount := hcount <;> rw [hcount]
      · exact nofun
      · exact fun k hk => Nat.le_of_eq (List.mem_singleton.1 hk)

theorem CountsRise.stepWith {p : Config.Params} {done : List CmdWord} {s t : State} (h : CountsRise done s)
    (ht : stepWith p s = .next t) : ∃ done', CountsRise done' t := by
  have huse : CountsRise done (useTurn s) := ⟨h.sent, h.answered, h.ordered, h.bounded⟩
  obtain ⟨-, hr⟩ | ⟨-, hr⟩ | ⟨-, hr⟩ := stepWith_cases ht
  · cases hr
    exact huse.hostStep
  · exact huse.engineStep hr.symm
  · cases hr
    exact ⟨done, huse.tgenStep⟩

theorem Reachable.countsRise {p : Config.Params} {s : State} (h : Reachable p s) : ∃ done, CountsRise done s := by
  induction h with
  | start e hsent htaken => exact ⟨[], countsRise_reset hsent htaken rfl rfl⟩
  | step s t _ ht ih =>
    obtain ⟨done, hdone⟩ := ih
    exact hdone.stepWith ht

/-- Settles O48: the commands still in CMDQ have no count yet, those of the others rise to TG_I; STAT shows TG_I. -/
theorem statCountsNeverDecrease : Obligations.StatCountsNeverDecrease := by
  refine ⟨fun p s hs => ?_, fun s t h => ?_⟩
  · obtain ⟨done, hsent, hanswered, hordered, hbounded⟩ := hs.countsRise
    rw [hsent, statCounts_append_waiting hanswered]
    exact ⟨hordered, hbounded, hs.inv.table.count⟩
  · cases h
    exact ⟨_, rfl, statusTgCount_statusWord s, statusReady_statusFrom _ _ _ _ _ _⟩

end Sys2Proof.Machine
end
